-- ==== Sys2Proof/Word.lean ====
section
/-! DEFINITION. The word types of the CORE (00_scope.md R8, 10_state.md R31, R34, R40). -/

namespace Sys2Proof

/-- `u8`: a general register, a timer, a byte of memory, an 8-bit immediate (00_scope.md R8). -/
abbrev Byte := BitVec 8

/-- `u16`: the program counter, the address register, a stack slot, an instruction word
(00_scope.md R8, 10_state.md R34, R36, R37; 30_encoding.md R90). -/
abbrev Word := BitVec 16

/-- The index of a general register, 0..15: every value names one (30_encoding.md R93). -/
abbrev Reg := Fin 16

/-- The index of a key, 0x0..0xF (10_state.md R42). -/
abbrev Key := Fin 16

/-- A display row, 0..31, and a display column, 0..63 (43_display.md R210). -/
abbrev Row := Fin 32
abbrev Col := Fin 64

end Sys2Proof
end

