-- ==== Sys2Proof/Machine/Flags.lean ====
section
/-! DEFINITION. The values VF takes as a flag output (41_arith.md R161). -/

namespace Sys2Proof.Machine

/-- A flag bit as a register value. -/
def flagByte (b : Bool) : Byte := if b then 1 else 0

/-- 8XY4: 1 exactly when the unbounded sum exceeds 255 (41_arith.md R168). -/
def carryFlag (a b : Byte) : Byte := flagByte (decide (a.toNat + b.toNat > 255))

/-- 8XY5 and 8XY7: 1 exactly when `minuend - subtrahend` does not borrow, 0 when
`subtrahend > minuend` (41_arith.md R169, R171). -/
def notBorrowFlag (minuend subtrahend : Byte) : Byte :=
  flagByte (!decide (subtrahend.toNat > minuend.toNat))

/-- 8XY6: the bit shifted out on the right (41_arith.md R170). -/
def shiftedOutRight (a : Byte) : Byte := a &&& 1

/-- 8XYE: the bit shifted out on the left (41_arith.md R172). -/
def shiftedOutLeft (a : Byte) : Byte := (a >>> 7) &&& 1

/-- DXYN: 1 when some set sprite bit fell on a pixel that was 1 (43_display.md R212). -/
def collisionFlag (hit : Bool) : Byte := flagByte hit

end Sys2Proof.Machine
end

