-- ==== Sys2Proof/Syntax.lean ====
section
/-! DEFINITION. The 34 instruction forms of the opcode map (30_encoding.md R95), in its order. -/

namespace Sys2Proof

/-- One constructor per row of spec/opcode_table.json. `NNN` is carried zero-extended to 16 bits
and `N` as a number (30_encoding.md R93); `Instr.wf` bounds them. A bit the decoder ignores
(R101) is no operand; `Y` of 8XY6 and 8XYE is one, "decoded but ignored" by the instruction. -/
inductive Instr where
  /-- 00E0 CLS -/
  | cls
  /-- 00EE RET -/
  | ret
  /-- 1NNN JP NNN -/
  | jp (nnn : Word)
  /-- 2NNN CALL NNN -/
  | call (nnn : Word)
  /-- 3XNN SE VX, NN -/
  | seImm (x : Reg) (nn : Byte)
  /-- 4XNN SNE VX, NN -/
  | sneImm (x : Reg) (nn : Byte)
  /-- 5XY0 SE VX, VY -/
  | seReg (x y : Reg)
  /-- 6XNN LD VX, NN -/
  | ldImm (x : Reg) (nn : Byte)
  /-- 7XNN ADD VX, NN -/
  | addImm (x : Reg) (nn : Byte)
  /-- 8XY0 LD VX, VY -/
  | ldReg (x y : Reg)
  /-- 8XY1 OR VX, VY -/
  | orReg (x y : Reg)
  /-- 8XY2 AND VX, VY -/
  | andReg (x y : Reg)
  /-- 8XY3 XOR VX, VY -/
  | xorReg (x y : Reg)
  /-- 8XY4 ADD VX, VY -/
  | addReg (x y : Reg)
  /-- 8XY5 SUB VX, VY -/
  | subReg (x y : Reg)
  /-- 8XY6 SHR VX, VY -/
  | shr (x y : Reg)
  /-- 8XY7 SUBN VX, VY -/
  | subn (x y : Reg)
  /-- 8XYE SHL VX, VY -/
  | shl (x y : Reg)
  /-- 9XY0 SNE VX, VY -/
  | sneReg (x y : Reg)
  /-- ANNN LD I, NNN -/
  | ldI (nnn : Word)
  /-- BNNN JP V0, NNN -/
  | jpV0 (nnn : Word)
  /-- CXNN RND VX, NN -/
  | rnd (x : Reg) (nn : Byte)
  /-- DXYN DRW VX, VY, N -/
  | drw (x y : Reg) (n : Nat)
  /-- EX9E SKP VX -/
  | skp (x : Reg)
  /-- EXA1 SKNP VX -/
  | sknp (x : Reg)
  /-- FX07 LD VX, DT -/
  | ldVxDt (x : Reg)
  /-- FX0A LD VX, K -/
  | ldVxK (x : Reg)
  /-- FX15 LD DT, VX -/
  | ldDtVx (x : Reg)
  /-- FX18 LD ST, VX -/
  | ldStVx (x : Reg)
  /-- FX1E ADD I, VX -/
  | addI (x : Reg)
  /-- FX29 LD F, VX -/
  | ldF (x : Reg)
  /-- FX33 LD B, VX -/
  | ldB (x : Reg)
  /-- FX55 LD [I], VX -/
  | storeRegs (x : Reg)
  /-- FX65 LD VX, [I] -/
  | loadRegs (x : Reg)
  deriving DecidableEq, Repr

end Sys2Proof
end

