-- ==== Sys2Proof/WellFormed.lean ====
section
/-! DEFINITION. Which instruction terms an instruction word can spell (30_encoding.md R93). -/

namespace Sys2Proof

/-- `NNN` is a 12-bit address (30_encoding.md R91: `op[11:0]`). -/
def addressFits (nnn : Word) : Bool := decide (nnn.toNat ≤ 0xFFF)

/-- `N` is a 4-bit constant (30_encoding.md R91: `op[3:0]`). -/
def rowCountFits (n : Nat) : Bool := decide (n ≤ 15)

/-- Every operand fits the field the form's encoding gives it (30_encoding.md R91 to R93).
Register indices and `NN` fit by their types. -/
def Instr.wf : Instr → Bool
  | .jp nnn | .call nnn | .ldI nnn | .jpV0 nnn => addressFits nnn
  | .drw _ _ n => rowCountFits n
  | .cls | .ret => true
  | .seImm _ _ | .sneImm _ _ | .ldImm _ _ | .addImm _ _ | .rnd _ _ => true
  | .seReg _ _ | .ldReg _ _ | .orReg _ _ | .andReg _ _ | .xorReg _ _ | .addReg _ _
  | .subReg _ _ | .shr _ _ | .subn _ _ | .shl _ _ | .sneReg _ _ => true
  | .skp _ | .sknp _ | .ldVxDt _ | .ldVxK _ | .ldDtVx _ | .ldStVx _ | .addI _ | .ldF _
  | .ldB _ | .storeRegs _ | .loadRegs _ => true

end Sys2Proof
end

