-- ==== Sys2Proof/Decode.lean ====
section
/-! DEFINITION. The decoder (30_encoding.md R90 to R101, R106) and the encoder of canonical words
(R102), both written from the opcode map R95. -/

namespace Sys2Proof

/-! Fields of an instruction word (00_scope.md R16, 30_encoding.md R91). -/

/-- `F = op[15:12]`, the family nibble. -/
def fieldF (op : Word) : Nat := (op.extractLsb' 12 4).toNat
/-- `X = op[11:8]`. -/
def fieldX (op : Word) : Reg := (op.extractLsb' 8 4).toFin
/-- `Y = op[7:4]`. -/
def fieldY (op : Word) : Reg := (op.extractLsb' 4 4).toFin
/-- `N = op[3:0]`. -/
def fieldN (op : Word) : Nat := (op.extractLsb' 0 4).toNat
/-- `NN = op[7:0]`. -/
def fieldNN (op : Word) : Byte := op.extractLsb' 0 8
/-- `NNN = op[11:0]`, zero-extended to 16 bits (30_encoding.md R93). -/
def fieldNNN (op : Word) : Word := (op.extractLsb' 0 12).setWidth 16

/-- Why bytes are no instruction. -/
inductive DecodeError where
  /-- fewer than the two bytes every instruction has (30_encoding.md R90) -/
  | truncated
  /-- the word is INVALID (30_encoding.md R100); the spec's one cause is `InvalidOpcode`
  (60_exceptions.md R261) -/
  | invalidOpcode (op : Word)
  deriving DecidableEq, Repr

/-- Family 0x0, discriminated by the low byte; `op[11:8]` is ignored (30_encoding.md R96, R101). -/
def decodeFamily0 (op : Word) : Except DecodeError Instr :=
  match (fieldNN op).toNat with
  | 0xE0 => .ok .cls
  | 0xEE => .ok .ret
  | _ => .error (.invalidOpcode op)

/-- Family 0x8, discriminated by the low nibble (30_encoding.md R97). -/
def decodeFamily8 (op : Word) : Except DecodeError Instr :=
  match fieldN op with
  | 0x0 => .ok (.ldReg (fieldX op) (fieldY op))
  | 0x1 => .ok (.orReg (fieldX op) (fieldY op))
  | 0x2 => .ok (.andReg (fieldX op) (fieldY op))
  | 0x3 => .ok (.xorReg (fieldX op) (fieldY op))
  | 0x4 => .ok (.addReg (fieldX op) (fieldY op))
  | 0x5 => .ok (.subReg (fieldX op) (fieldY op))
  | 0x6 => .ok (.shr (fieldX op) (fieldY op))
  | 0x7 => .ok (.subn (fieldX op) (fieldY op))
  | 0xE => .ok (.shl (fieldX op) (fieldY op))
  | _ => .error (.invalidOpcode op)

/-- Family 0xE, discriminated by the low byte (30_encoding.md R98). -/
def decodeFamilyE (op : Word) : Except DecodeError Instr :=
  match (fieldNN op).toNat with
  | 0x9E => .ok (.skp (fieldX op))
  | 0xA1 => .ok (.sknp (fieldX op))
  | _ => .error (.invalidOpcode op)

/-- Family 0xF, discriminated by the low byte (30_encoding.md R99). -/
def decodeFamilyF (op : Word) : Except DecodeError Instr :=
  match (fieldNN op).toNat with
  | 0x07 => .ok (.ldVxDt (fieldX op))
  | 0x0A => .ok (.ldVxK (fieldX op))
  | 0x15 => .ok (.ldDtVx (fieldX op))
  | 0x18 => .ok (.ldStVx (fieldX op))
  | 0x1E => .ok (.addI (fieldX op))
  | 0x29 => .ok (.ldF (fieldX op))
  | 0x33 => .ok (.ldB (fieldX op))
  | 0x55 => .ok (.storeRegs (fieldX op))
  | 0x65 => .ok (.loadRegs (fieldX op))
  | _ => .error (.invalidOpcode op)

/-- `Decode(op)`: the family nibble alone selects the form, but in families 0x0, 0x8, 0xE and 0xF
(30_encoding.md R94, R95). It reads no state (40_dispatch.md R123). -/
def decodeWord (op : Word) : Except DecodeError Instr :=
  match fieldF op with
  | 0x0 => decodeFamily0 op
  | 0x1 => .ok (.jp (fieldNNN op))
  | 0x2 => .ok (.call (fieldNNN op))
  | 0x3 => .ok (.seImm (fieldX op) (fieldNN op))
  | 0x4 => .ok (.sneImm (fieldX op) (fieldNN op))
  | 0x5 => .ok (.seReg (fieldX op) (fieldY op))
  | 0x6 => .ok (.ldImm (fieldX op) (fieldNN op))
  | 0x7 => .ok (.addImm (fieldX op) (fieldNN op))
  | 0x8 => decodeFamily8 op
  | 0x9 => .ok (.sneReg (fieldX op) (fieldY op))
  | 0xA => .ok (.ldI (fieldNNN op))
  | 0xB => .ok (.jpV0 (fieldNNN op))
  | 0xC => .ok (.rnd (fieldX op) (fieldNN op))
  | 0xD => .ok (.drw (fieldX op) (fieldY op) (fieldN op))
  | 0xE => decodeFamilyE op
  | 0xF => decodeFamilyF op
  | _ => .error (.invalidOpcode op)

/-! Byte order: big-endian, the byte at the lower address is bits 15..8 (20_memory.md R64). -/

/-- `hi ++ lo` (00_scope.md R8). -/
def wordOfBytes (hi lo : Byte) : Word := hi ++ lo
/-- The byte of a word at the lower address. -/
def highByte (w : Word) : Byte := w.extractLsb' 8 8
/-- The byte of a word at the higher address. -/
def lowByte (w : Word) : Byte := w.extractLsb' 0 8

/-- Decode the first instruction of a byte sequence and give the rest (30_encoding.md R90). -/
def decode : List Byte → Except DecodeError (Instr × List Byte)
  | hi :: lo :: rest =>
    match decodeWord (wordOfBytes hi lo) with
    | .ok i => .ok (i, rest)
    | .error e => .error e
  | _ => .error .truncated

/-! The encoder, by the operand layouts of 30_encoding.md R92. `n % 0x10` and `nnn % 0x1000` keep
an ill-formed operand inside its field. -/

/-- Layouts `Z` and `XK`: family, X, sub-opcode byte. -/
def layoutXK (f : Nat) (x : Reg) (k : Nat) : Word := BitVec.ofNat 16 (f * 0x1000 + x.val * 0x100 + k)
/-- Layout `A`: family, address. -/
def layoutA (f : Nat) (nnn : Word) : Word := BitVec.ofNat 16 (f * 0x1000 + nnn.toNat % 0x1000)
/-- Layout `XI`: family, X, 8-bit constant. -/
def layoutXI (f : Nat) (x : Reg) (nn : Byte) : Word :=
  BitVec.ofNat 16 (f * 0x1000 + x.val * 0x100 + nn.toNat)
/-- Layouts `XY` and `XYN`: family, X, Y, low nibble. -/
def layoutXYN (f : Nat) (x y : Reg) (n : Nat) : Word :=
  BitVec.ofNat 16 (f * 0x1000 + x.val * 0x100 + y.val * 0x10 + n % 0x10)

/-- The canonical word of an instruction (30_encoding.md R95, R102). -/
def encode : Instr → Word
  | .cls => layoutXK 0x0 0 0xE0
  | .ret => layoutXK 0x0 0 0xEE
  | .jp nnn => layoutA 0x1 nnn
  | .call nnn => layoutA 0x2 nnn
  | .seImm x nn => layoutXI 0x3 x nn
  | .sneImm x nn => layoutXI 0x4 x nn
  | .seReg x y => layoutXYN 0x5 x y 0x0
  | .ldImm x nn => layoutXI 0x6 x nn
  | .addImm x nn => layoutXI 0x7 x nn
  | .ldReg x y => layoutXYN 0x8 x y 0x0
  | .orReg x y => layoutXYN 0x8 x y 0x1
  | .andReg x y => layoutXYN 0x8 x y 0x2
  | .xorReg x y => layoutXYN 0x8 x y 0x3
  | .addReg x y => layoutXYN 0x8 x y 0x4
  | .subReg x y => layoutXYN 0x8 x y 0x5
  | .shr x y => layoutXYN 0x8 x y 0x6
  | .subn x y => layoutXYN 0x8 x y 0x7
  | .shl x y => layoutXYN 0x8 x y 0xE
  | .sneReg x y => layoutXYN 0x9 x y 0x0
  | .ldI nnn => layoutA 0xA nnn
  | .jpV0 nnn => layoutA 0xB nnn
  | .rnd x nn => layoutXI 0xC x nn
  | .drw x y n => layoutXYN 0xD x y n
  | .skp x => layoutXK 0xE x 0x9E
  | .sknp x => layoutXK 0xE x 0xA1
  | .ldVxDt x => layoutXK 0xF x 0x07
  | .ldVxK x => layoutXK 0xF x 0x0A
  | .ldDtVx x => layoutXK 0xF x 0x15
  | .ldStVx x => layoutXK 0xF x 0x18
  | .addI x => layoutXK 0xF x 0x1E
  | .ldF x => layoutXK 0xF x 0x29
  | .ldB x => layoutXK 0xF x 0x33
  | .storeRegs x => layoutXK 0xF x 0x55
  | .loadRegs x => layoutXK 0xF x 0x65

/-- The bytes of an instruction as memory holds them (20_memory.md R64). -/
def encodeBytes (i : Instr) : List Byte := [highByte (encode i), lowByte (encode i)]

/-- The decoder mask and the fixed bits of each form, as spec/opcode_table.json gives them
(30_encoding.md R94, R95). -/
def Instr.key : Instr → Word × Word
  | .cls => (0xF0FF, 0x00E0)
  | .ret => (0xF0FF, 0x00EE)
  | .jp _ => (0xF000, 0x1000)
  | .call _ => (0xF000, 0x2000)
  | .seImm _ _ => (0xF000, 0x3000)
  | .sneImm _ _ => (0xF000, 0x4000)
  | .seReg _ _ => (0xF000, 0x5000)
  | .ldImm _ _ => (0xF000, 0x6000)
  | .addImm _ _ => (0xF000, 0x7000)
  | .ldReg _ _ => (0xF00F, 0x8000)
  | .orReg _ _ => (0xF00F, 0x8001)
  | .andReg _ _ => (0xF00F, 0x8002)
  | .xorReg _ _ => (0xF00F, 0x8003)
  | .addReg _ _ => (0xF00F, 0x8004)
  | .subReg _ _ => (0xF00F, 0x8005)
  | .shr _ _ => (0xF00F, 0x8006)
  | .subn _ _ => (0xF00F, 0x8007)
  | .shl _ _ => (0xF00F, 0x800E)
  | .sneReg _ _ => (0xF000, 0x9000)
  | .ldI _ => (0xF000, 0xA000)
  | .jpV0 _ => (0xF000, 0xB000)
  | .rnd _ _ => (0xF000, 0xC000)
  | .drw _ _ _ => (0xF000, 0xD000)
  | .skp _ => (0xF0FF, 0xE09E)
  | .sknp _ => (0xF0FF, 0xE0A1)
  | .ldVxDt _ => (0xF0FF, 0xF007)
  | .ldVxK _ => (0xF0FF, 0xF00A)
  | .ldDtVx _ => (0xF0FF, 0xF015)
  | .ldStVx _ => (0xF0FF, 0xF018)
  | .addI _ => (0xF0FF, 0xF01E)
  | .ldF _ => (0xF0FF, 0xF029)
  | .ldB _ => (0xF0FF, 0xF033)
  | .storeRegs _ => (0xF0FF, 0xF055)
  | .loadRegs _ => (0xF0FF, 0xF065)

/-- The opcode map, one (mask, fixed bits) pair per row (30_encoding.md R95). -/
def opcodeTable : List (Word × Word) :=
  [(0xF0FF, 0x00E0), (0xF0FF, 0x00EE), (0xF000, 0x1000), (0xF000, 0x2000),
   (0xF000, 0x3000), (0xF000, 0x4000), (0xF000, 0x5000), (0xF000, 0x6000),
   (0xF000, 0x7000), (0xF00F, 0x8000), (0xF00F, 0x8001), (0xF00F, 0x8002),
   (0xF00F, 0x8003), (0xF00F, 0x8004), (0xF00F, 0x8005), (0xF00F, 0x8006),
   (0xF00F, 0x8007), (0xF00F, 0x800E), (0xF000, 0x9000), (0xF000, 0xA000),
   (0xF000, 0xB000), (0xF000, 0xC000), (0xF000, 0xD000), (0xF0FF, 0xE09E),
   (0xF0FF, 0xE0A1), (0xF0FF, 0xF007), (0xF0FF, 0xF00A), (0xF0FF, 0xF015),
   (0xF0FF, 0xF018), (0xF0FF, 0xF01E), (0xF0FF, 0xF029), (0xF0FF, 0xF033),
   (0xF0FF, 0xF055), (0xF0FF, 0xF065)]

/-- The instruction the decoder reads from a word whose bits are numbered as
spec/opcode_table.json numbers them: bits at and above `nbits` are 0, the word is laid out
big-endian, and an instruction is one 16-bit word (30_encoding.md R90). -/
def decodeTableWord (nbits w : Nat) : Option Instr :=
  let op : Word := BitVec.ofNat 16 (w % 2 ^ nbits)
  match decode [highByte op, lowByte op] with
  | .ok (i, _) => some i
  | .error _ => none

end Sys2Proof
end

