-- ==== Sys2Proof/Config.lean ====
section
/-! DEFINITION. What an implementation fixes, and the free values (00_scope.md R6, R13). -/

namespace Sys2Proof.Config

/-- What an address above 0xFFF does: the OPEN parameter `AddrPolicy` (20_memory.md R62, D5). -/
inductive AddrPolicy where
  /-- raise `ModelFault(AddressOutOfRange)`: "the spec's default for proofs" -/
  | fault
  /-- resolve the address modulo 4096 -/
  | wrap12
  deriving DecidableEq, Repr

/-- The two OPEN parameters of 00_scope.md R6. "A model takes `AddrPolicy` as an argument"
(20_memory.md R62): `step` has no argument but the state, so State carries them; nothing writes
them, and a statement about every state holds for every value of both (log 1, log 2). -/
structure Params where
  addrPolicy : AddrPolicy
  /-- `FONT`: 80 bytes, glyph `d` at `5 * d` (70_reset_and_hazards.md R291). -/
  font : Vector Byte 80
  deriving DecidableEq, Repr

/-- The recommended value of `FONT`, the table of 93_implementation_defined.md part 2.
PRESUMED (log 2): "from general knowledge, not in source"; no statement rests on it. -/
def recommendedFont : Vector Byte 80 := #v[
  0xF0, 0x90, 0x90, 0x90, 0xF0,  0x20, 0x60, 0x20, 0x20, 0x70,
  0xF0, 0x10, 0xF0, 0x80, 0xF0,  0xF0, 0x10, 0xF0, 0x10, 0xF0,
  0x90, 0x90, 0xF0, 0x10, 0x10,  0xF0, 0x80, 0xF0, 0x10, 0xF0,
  0xF0, 0x80, 0xF0, 0x90, 0xF0,  0xF0, 0x10, 0x20, 0x40, 0x40,
  0xF0, 0x90, 0xF0, 0x90, 0xF0,  0xF0, 0x90, 0xF0, 0x10, 0xF0,
  0xF0, 0x90, 0xF0, 0x90, 0x90,  0xE0, 0x90, 0xE0, 0x90, 0xE0,
  0xF0, 0x80, 0x80, 0x80, 0xF0,  0xE0, 0x90, 0x90, 0x90, 0xE0,
  0xF0, 0x80, 0xF0, 0x80, 0xF0,  0xF0, 0x80, 0xF0, 0x80, 0x80]

/-- The parameters `State.reset` stands for: `AddrPolicy = Fault`, "the spec's default for proofs"
(DESIGN CHOICE, log 1), and the recommended `FONT` (PRESUMED, log 2). -/
def defaultParams : Params := { addrPolicy := .fault, font := recommendedFont }

/-- `draw_byte()`: the n-th draw of a run, any byte "under no law" (00_scope.md R13,
41_arith.md R173, D16). A free value: it has no body, so nothing can be proved of it (log 3). -/
opaque drawByte : Nat → Byte

/-- The free choice behind `draw_key(S)` (00_scope.md R13, 44_input_timers.md R234, D10): a number
whose remainder by the size of `S` says which pressed key is taken. No body (log 4). -/
opaque drawKey : Nat → Nat

end Sys2Proof.Config
end

