-- ==== Sys2Proof/Machine/State.lean ====
section
/-! DEFINITION. The architectural state (10_state.md R30), the outcomes of a step, and reset. -/

namespace Sys2Proof.Machine

/-- The bytes that differ from what an unlisted address reads as, by address (10_state.md R44).
`Memory.wf` (Ops.lean) says its canonical form. -/
abbrev Memory := List Host.Cell

/-- `disp[y][x]`: 32 rows of 64 one-bit pixels (10_state.md R40). -/
abbrev Display := Vector (Vector Bool 64) 32

/-- The record of 10_state.md R30, and the model's own fields `tone`, `draws` and `params`. -/
structure State where
  /-- `mem`: the 4096-byte memory (R44) -/
  mem : Memory
  /-- `V`: the general registers V0..VF (R31) -/
  V : Vector Byte 16
  /-- `I`: the address register (R36) -/
  I : Word
  /-- `pc`: the program counter (R34) -/
  pc : Word
  /-- `stack`: the call-stack slots (R37, R48) -/
  stack : Vector Word 16
  /-- `sp`: the call-stack depth, 0..16 (R37) -/
  sp : Fin 17
  /-- `dt`: the delay timer (R38) -/
  dt : Byte
  /-- `st`: the sound timer (R39) -/
  st : Byte
  /-- `disp`: the display buffer (R40) -/
  disp : Display
  /-- `dirty`: the display-changed flag (R41) -/
  dirty : Bool
  /-- `keys`: the key levels, true = pressed (R42) -/
  keys : Vector Bool 16
  /-- `terminate`: the halt flag (R43) -/
  terminate : Bool
  /-- The model's own: the one-bit output of the last step (R47; log 6) -/
  tone : Bool
  /-- The model's own: how many draws have been taken (00_scope.md R13; log 5) -/
  draws : Nat
  /-- The model's own: the OPEN parameters, which nothing writes (00_scope.md R6; log 1, log 2) -/
  params : Config.Params
  deriving DecidableEq, Repr

/-- The kinds of `ModelFault` (00_scope.md R12, 60_exceptions.md R265). Each stops the run where
the source gives the hardware no behaviour, so each is SAFE: nothing is claimed past it. -/
inductive Fault where
  /-- 2NNN with `sp = 16` (40_dispatch.md R133). Safe. -/
  | stackOverflow
  /-- 00EE with `sp = 0` (40_dispatch.md R131). Safe. -/
  | stackUnderflow
  /-- The fetch, DXYN, FX33, FX55 and FX65 at an address above 0xFFF under `AddrPolicy = Fault`
  (20_memory.md R62). Safe. -/
  | addressOutOfRange
  /-- EX9E and EXA1 with `V[X] > 0xF` (44_input_timers.md R231, R232). Safe. -/
  | keyIndexOutOfRange
  deriving DecidableEq, Repr

/-- Commands without a meaning (00_scope.md R14). No instruction refuses. -/
inductive Refusal where
  /-- An instruction without a meaning in this model: raised by no arm of `exec` today. Safe. -/
  | notModelled (mnemonic : String)
  /-- A load of more than 3584 bytes (70_reset_and_hazards.md R295). Safe. -/
  | loadTooLong
  /-- A command before the first reset (70_reset_and_hazards.md R292). Safe. -/
  | beforeFirstReset
  deriving DecidableEq, Repr

/-- The state after reset on a machine with parameters `p` (10_state.md R49,
70_reset_and_hazards.md R290). Memory lists nothing: an unlisted address reads as its reset
contents (`Memory.unlisted`). `I`, `dt`, `st`, `dirty` and `terminate` are the spec's D13
(log 7); `tone` and `draws` are the model's (log 6, log 5). -/
def State.resetWith (p : Config.Params) : State where
  mem := []
  V := Vector.replicate 16 0
  I := 0
  pc := 0x200
  stack := Vector.replicate 16 0
  sp := 0
  dt := 0
  st := 0
  disp := Vector.replicate 32 (Vector.replicate 64 false)
  dirty := true
  keys := Vector.replicate 16 false
  terminate := false
  tone := false
  draws := 0
  params := p

/-- The state after reset with the model's default parameters (log 1, log 2). -/
def State.reset : State := State.resetWith Config.defaultParams

end Sys2Proof.Machine
end

