-- ==== Sys2Proof/Machine/Ops.lean ====
section
/-! DEFINITION. The named operations over memory, registers, stack, timers and display that the
meanings share, the fetch, the halt, the tick, and how a step ends. -/

namespace Sys2Proof.Machine

/-! Memory (20_memory.md). -/

/-- What an address no entry lists reads as: its reset contents, the `FONT` at 0x000..0x04F and
zero elsewhere (10_state.md R49, 70_reset_and_hazards.md R290). -/
def Memory.unlisted (p : Config.Params) (a : Nat) : Byte :=
  if h : a < 80 then p.font[a] else 0

/-- The value the list gives an address, if it lists it. -/
def Memory.lookup (a : Nat) : Memory → Option Byte
  | [] => none
  | (b, v) :: rest => if a = b then some v else Memory.lookup a rest

/-- Drop what the list gives an address. -/
def Memory.erase (a : Nat) : Memory → Memory
  | [] => []
  | (b, v) :: rest => if a = b then Memory.erase a rest else (b, v) :: Memory.erase a rest

/-- List a value for an address, keeping the addresses rising. -/
def Memory.insert (a : Nat) (v : Byte) : Memory → Memory
  | [] => [(a, v)]
  | (b, w) :: rest =>
    if a < b then (a, v) :: (b, w) :: rest
    else if a = b then (a, v) :: rest
    else (b, w) :: Memory.insert a v rest

/-- The byte at a physical address (20_memory.md R63). -/
def Memory.read (p : Config.Params) (m : Memory) (a : Nat) : Byte :=
  (Memory.lookup a m).getD (Memory.unlisted p a)

/-- Write the byte at a physical address (20_memory.md R63): writing what an unlisted address
reads as removes the entry, so equal memories are equal lists. -/
def Memory.write (p : Config.Params) (m : Memory) (a : Nat) (v : Byte) : Memory :=
  if v = Memory.unlisted p a then Memory.erase a m else Memory.insert a v m

/-- The canonical form: addresses strictly rising, all inside 0x000..0xFFF (20_memory.md R60), no
entry equal to what an unlisted address reads as. -/
abbrev Memory.wf (p : Config.Params) (m : Memory) : Prop :=
  m.Pairwise (fun c d => c.1 < d.1) ∧ ∀ c ∈ m, c.1 < 4096 ∧ c.2 ≠ Memory.unlisted p c.1

/-- `Phys(a)`: none where it raises `ModelFault(AddressOutOfRange)` (20_memory.md R62). -/
def phys (policy : Config.AddrPolicy) (a : Nat) : Option Nat :=
  if a ≤ 0xFFF then some a
  else
    match policy with
    | .fault => none
    | .wrap12 => some (a % 4096)

/-- The byte memory holds at a physical address: the model's read of one byte. -/
def State.memByte (s : State) (q : Nat) : Byte := Memory.read s.params s.mem q

/-- `MemRead(a, 1)` (20_memory.md R63). -/
def State.readByte (s : State) (a : Nat) : Option Byte :=
  (phys s.params.addrPolicy a).map s.memByte

/-- `MemWrite(a, 1, v)` (20_memory.md R63). -/
def State.writeByte (s : State) (a : Nat) (v : Byte) : Option State :=
  (phys s.params.addrPolicy a).map fun q => { s with mem := Memory.write s.params s.mem q v }

/-- One-byte reads at `a`, `a + 1`, ... in ascending order, each resolved separately
(20_memory.md R65). -/
def State.readBytes (s : State) : Nat → Nat → Option (List Byte)
  | _, 0 => some []
  | a, n + 1 =>
    match s.readByte a with
    | none => none
    | some b => (State.readBytes s (a + 1) n).map (b :: ·)

/-- One-byte writes at `a`, `a + 1`, ... in ascending order, each resolved separately
(20_memory.md R65). None as soon as one faults: nothing of the sequence lands (R73). -/
def State.writeBytes : State → Nat → List Byte → Option State
  | s, _, [] => some s
  | s, a, b :: bs =>
    match s.writeByte a b with
    | none => none
    | some t => State.writeBytes t (a + 1) bs

/-- FETCH: the word at `[pc, pc + 1]`, big-endian; `pc + 1` is not reduced modulo 2^16
(40_dispatch.md R122). -/
def State.fetchWord (s : State) : Option Word :=
  match s.readByte s.pc.toNat, s.readByte (s.pc.toNat + 1) with
  | some hi, some lo => some (wordOfBytes hi lo)
  | _, _ => none

/-- Store a word where the fetch of this state reads it (20_memory.md R64). -/
def State.placeWord (s : State) (op : Word) : Option State :=
  s.writeBytes s.pc.toNat [highByte op, lowByte op]

/-! Registers (10_state.md R31, R34 to R36). -/

/-- `V[x]`. -/
def State.getV (s : State) (x : Reg) : Byte := s.V[x]

/-- `V[x] <- b`. No register is hard-wired (10_state.md R31). -/
def State.setV (s : State) (x : Reg) (b : Byte) : State := { s with V := s.V.set x b }

/-- `V[0xF] <- flag` and then `V[x] <- result`: the last write stays (00_scope.md R15,
41_arith.md R161). -/
def State.setFlagThenV (s : State) (flag : Byte) (x : Reg) (result : Byte) : State :=
  (s.setV 0xF flag).setV x result

/-- Write consecutive registers from index `i` up (42_memory_ops.md R196). -/
def writeRegs : Nat → List Byte → Vector Byte 16 → Vector Byte 16
  | _, [], v => v
  | i, b :: bs, v => writeRegs (i + 1) bs (v.setIfInBounds i b)

/-- `V[0..] <- bytes`. -/
def State.setRegs (s : State) (bytes : List Byte) : State := { s with V := writeRegs 0 bytes s.V }

/-- `I <- a`. -/
def State.setI (s : State) (a : Word) : State := { s with I := a }

/-- `pc <- target`. -/
def State.setPc (s : State) (target : Word) : State := { s with pc := target }

/-- The default advance, `pc <- (pc + 2) mod 2^16` (40_dispatch.md R127). -/
def State.advance (s : State) : State := { s with pc := s.pc + 2 }

/-- A skip: `pc + 4` when taken, `pc + 2` when not (40_dispatch.md R127, R139). -/
def State.skipIf (s : State) (taken : Bool) : State :=
  { s with pc := if taken then s.pc + 4 else s.pc + 2 }

/-! Call stack (10_state.md R37, R48). -/

/-- Push a return address: none at depth 16 (40_dispatch.md R133). -/
def State.push (s : State) (a : Word) : Option State :=
  if h : s.sp.val < 16 then
    some { s with stack := s.stack.set s.sp.val a h, sp := ⟨s.sp.val + 1, by omega⟩ }
  else none

/-- Pop a return address: none at depth 0. The slot keeps its value (10_state.md R48). -/
def State.pop (s : State) : Option (Word × State) :=
  if h : 0 < s.sp.val then
    some (s.stack[s.sp.val - 1], { s with sp := ⟨s.sp.val - 1, by omega⟩ })
  else none

/-! Draws (00_scope.md R13). -/

/-- Count one draw, so that the next is a fresh free value. -/
def State.drawn (s : State) : State := { s with draws := s.draws + 1 }

/-! Timers (44_input_timers.md R237). -/

/-- `dt <- b`. -/
def State.setDt (s : State) (b : Byte) : State := { s with dt := b }

/-- `st <- b`. -/
def State.setSt (s : State) (b : Byte) : State := { s with st := b }

/-- A timer saturates at 0 (44_input_timers.md R239). -/
def countDown (t : Byte) : Byte := if t = 0 then 0 else t - 1

/-- `Tick()`, its tone bit put out in `tone` (44_input_timers.md R237, R238). -/
def State.tick (s : State) : State :=
  { s with dt := countDown s.dt, st := countDown s.st, tone := decide (s.st = 1) }

/-! Display (43_display.md). -/

/-- The pixel `disp[y][x]`. -/
def Display.pixel (d : Display) (y : Row) (x : Col) : Bool := d[y][x]

/-- Write the pixel `disp[y][x]`. -/
def Display.setPixel (d : Display) (y : Row) (x : Col) (b : Bool) : Display :=
  d.set y (d[y].set x b)

/-- A display of all-zero pixels (43_display.md R211). -/
def Display.blank : Display := Vector.replicate 32 (Vector.replicate 64 false)

/-- Replace the buffer and mark it changed (10_state.md R41). -/
def State.redraw (s : State) (d : Display) : State := { s with disp := d, dirty := true }

/-! The CORE's one architectural exception and how it is left (60_exceptions.md). -/

/-- `Halt(InvalidOpcode)`: exactly `terminate <- 1`. Nothing is saved, `pc` keeps the address of
the invalid word, no tick runs, and the tone output is 0 (60_exceptions.md R262). -/
def State.haltInvalidOpcode (s : State) : State := { s with terminate := true, tone := false }

/-- CHECK on a halted CORE: the step "reads nothing and writes nothing, and its tone output is 0"
(40_dispatch.md R121). There is no return from the halt (60_exceptions.md R269); only reset
leaves it (R264). -/
def State.stayHalted (s : State) : State := { s with tone := false }

/-- `Reset()`: every piece of the spec's state takes its reset value, whatever it was, the halted
state included (70_reset_and_hazards.md R290). The draw counter runs on, since reseeding must not
make two draws equal (log 5); the parameters are the machine's. -/
def State.hostReset (s : State) : State := { State.resetWith s.params with draws := s.draws }

/-! How a step ends. -/

/-- TICK follows an executed instruction and nothing else (40_dispatch.md R128): a model fault has
no next state and no tick (R126). -/
def finishStep : Host.Outcome State Fault Refusal → Host.Outcome State Fault Refusal
  | .next t => .next t.tick
  | .fault f => .fault f
  | .refused r => .refused r

end Sys2Proof.Machine
end

