-- ==== Sys2Proof/Machine/Operands.lean ====
section
/-! DEFINITION. The operand forms: the addressing mode, the digits, the sprite bits, the key
selection. -/

namespace Sys2Proof.Machine

/-- The effective address of the k-th byte: the natural number `I + k`, not reduced before `Phys`
(42_memory_ops.md R190). -/
def State.effAddr (s : State) (k : Nat) : Nat := s.I.toNat + k

/-- The registers `V[0]`..`V[x]` in order (42_memory_ops.md R195). -/
def State.regsUpTo (s : State) (x : Reg) : List Byte := s.V.toList.take (x.val + 1)

/-- The decimal digits: hundreds, tens, ones (42_memory_ops.md R194). -/
def bcdDigits (b : Byte) : List Byte :=
  [BitVec.ofNat 8 (b.toNat / 100), BitVec.ofNat 8 (b.toNat / 10 % 10), BitVec.ofNat 8 (b.toNat % 10)]

/-- The font address of a digit, `vx * 5`, not masked to a nibble (42_memory_ops.md R193). -/
def glyphAddr (b : Byte) : Word := BitVec.ofNat 16 (b.toNat * 5)

/-- A byte zero-extended to 16 bits (30_encoding.md R93). -/
def zext16 (b : Byte) : Word := b.setWidth 16

/-- Bit `7 - c` of a sprite byte: the most significant bit is the leftmost column
(43_display.md R213). -/
def spriteBit (b : Byte) (c : Nat) : Bool := b.getLsbD (7 - c)

/-- Display coordinates are toroidal (43_display.md R210). -/
def rowOf (y : Nat) : Row := ⟨y % 32, Nat.mod_lt _ (by decide)⟩
def colOf (x : Nat) : Col := ⟨x % 64, Nat.mod_lt _ (by decide)⟩

/-- The key a byte names: none above 0xF (44_input_timers.md R231). -/
def keyOf (b : Byte) : Option Key := if h : b.toNat < 16 then some ⟨b.toNat, h⟩ else none

/-- The level of a key at the start of the step (44_input_timers.md R230). -/
def State.pressed (s : State) (k : Key) : Bool := s.keys[k]

/-- The set of pressed keys, in rising order (44_input_timers.md R234). -/
def State.pressedKeys (s : State) : List Key := (List.finRange 16).filter s.pressed

/-- `draw_key(S)` for `S = k :: ks`: the element the free number `d` selects. Every element is
selected by some `d`, and a single one by all (00_scope.md R13, 44_input_timers.md R234). -/
def pickKey (d : Nat) (k : Key) (ks : List Key) : Key := (k :: ks).getD (d % (ks.length + 1)) k

/-- A key's index as a register value (44_input_timers.md R234). -/
def keyByte (k : Key) : Byte := BitVec.ofNat 8 k.val

end Sys2Proof.Machine
end

