-- ==== Sys2Proof/Machine/Arith.lean ====
section
/-! DEFINITION. Register, arithmetic and logic instructions (41_arith.md). All arithmetic is
unsigned modulo 256 (R160). -/

namespace Sys2Proof.Machine

/-- 6XNN LD VX, NN (41_arith.md R162). -/
def execLdImm (x : Reg) (nn : Byte) (s : State) : Host.Outcome State Fault Refusal :=
  .next (s.setV x nn).advance

/-- 7XNN ADD VX, NN: no carry is recorded (41_arith.md R163). -/
def execAddImm (x : Reg) (nn : Byte) (s : State) : Host.Outcome State Fault Refusal :=
  .next (s.setV x (s.getV x + nn)).advance

/-- 8XY0 LD VX, VY (41_arith.md R164). -/
def execLdReg (x y : Reg) (s : State) : Host.Outcome State Fault Refusal :=
  .next (s.setV x (s.getV y)).advance

/-- 8XY1 OR VX, VY: VF is not written as a flag (41_arith.md R165). -/
def execOrReg (x y : Reg) (s : State) : Host.Outcome State Fault Refusal :=
  .next (s.setV x (s.getV x ||| s.getV y)).advance

/-- 8XY2 AND VX, VY (41_arith.md R166). -/
def execAndReg (x y : Reg) (s : State) : Host.Outcome State Fault Refusal :=
  .next (s.setV x (s.getV x &&& s.getV y)).advance

/-- 8XY3 XOR VX, VY (41_arith.md R167). -/
def execXorReg (x y : Reg) (s : State) : Host.Outcome State Fault Refusal :=
  .next (s.setV x (s.getV x ^^^ s.getV y)).advance

/-- 8XY4 ADD VX, VY: VF = carry, then the sum (41_arith.md R168). -/
def execAddReg (x y : Reg) (s : State) : Host.Outcome State Fault Refusal :=
  .next (s.setFlagThenV (carryFlag (s.getV x) (s.getV y)) x (s.getV x + s.getV y)).advance

/-- 8XY5 SUB VX, VY: VF = not borrow, then `vx - vy` (41_arith.md R169). -/
def execSubReg (x y : Reg) (s : State) : Host.Outcome State Fault Refusal :=
  .next (s.setFlagThenV (notBorrowFlag (s.getV x) (s.getV y)) x (s.getV x - s.getV y)).advance

/-- 8XY6 SHR VX: VF = bit 0, then `vx >> 1`; `Y` has no effect (41_arith.md R170). -/
def execShr (x _y : Reg) (s : State) : Host.Outcome State Fault Refusal :=
  .next (s.setFlagThenV (shiftedOutRight (s.getV x)) x (s.getV x >>> 1)).advance

/-- 8XY7 SUBN VX, VY: VF = not borrow, then `vy - vx` (41_arith.md R171). -/
def execSubn (x y : Reg) (s : State) : Host.Outcome State Fault Refusal :=
  .next (s.setFlagThenV (notBorrowFlag (s.getV y) (s.getV x)) x (s.getV y - s.getV x)).advance

/-- 8XYE SHL VX: VF = bit 7, then `vx << 1`; `Y` has no effect (41_arith.md R172). -/
def execShl (x _y : Reg) (s : State) : Host.Outcome State Fault Refusal :=
  .next (s.setFlagThenV (shiftedOutLeft (s.getV x)) x (s.getV x <<< 1)).advance

/-- CXNN RND VX, NN: a fresh draw, masked (41_arith.md R173; log 3). -/
def execRnd (x : Reg) (nn : Byte) (s : State) : Host.Outcome State Fault Refusal :=
  .next (s.drawn.setV x (Config.drawByte s.draws &&& nn)).advance

end Sys2Proof.Machine
end

