-- ==== Sys2Proof/Machine/Control.lean ====
section
/-! DEFINITION. Control transfer and skips (40_dispatch.md section 2). -/

namespace Sys2Proof.Machine

/-- 00EE RET: `pc` is the popped value plus 2 (40_dispatch.md R131). -/
def execRet (s : State) : Host.Outcome State Fault Refusal :=
  match s.pop with
  | none => .fault .stackUnderflow
  | some (a, t) => .next (t.setPc (a + 2))

/-- 1NNN JP NNN (40_dispatch.md R132). -/
def execJp (nnn : Word) (s : State) : Host.Outcome State Fault Refusal := .next (s.setPc nnn)

/-- 2NNN CALL NNN: pushes the address of the 2NNN itself (40_dispatch.md R133). -/
def execCall (nnn : Word) (s : State) : Host.Outcome State Fault Refusal :=
  match s.push s.pc with
  | none => .fault .stackOverflow
  | some t => .next (t.setPc nnn)

/-- 3XNN SE VX, NN (40_dispatch.md R134). -/
def execSeImm (x : Reg) (nn : Byte) (s : State) : Host.Outcome State Fault Refusal :=
  .next (s.skipIf (s.getV x == nn))

/-- 4XNN SNE VX, NN (40_dispatch.md R135). -/
def execSneImm (x : Reg) (nn : Byte) (s : State) : Host.Outcome State Fault Refusal :=
  .next (s.skipIf (s.getV x != nn))

/-- 5XY0 SE VX, VY (40_dispatch.md R136). -/
def execSeReg (x y : Reg) (s : State) : Host.Outcome State Fault Refusal :=
  .next (s.skipIf (s.getV x == s.getV y))

/-- 9XY0 SNE VX, VY (40_dispatch.md R137). -/
def execSneReg (x y : Reg) (s : State) : Host.Outcome State Fault Refusal :=
  .next (s.skipIf (s.getV x != s.getV y))

/-- BNNN JP V0, NNN: the 16-bit sum, not masked to 12 bits (40_dispatch.md R138). -/
def execJpV0 (nnn : Word) (s : State) : Host.Outcome State Fault Refusal :=
  .next (s.setPc (nnn + zext16 (s.getV 0)))

end Sys2Proof.Machine
end

