-- ==== Sys2Proof/Machine/DisplayOps.lean ====
section
/-! DEFINITION. Display instructions (43_display.md). -/

namespace Sys2Proof.Machine

/-- 00E0 CLS: every pixel 0, `dirty` set (43_display.md R211). -/
def execCls (s : State) : Host.Outcome State Fault Refusal :=
  .next (s.redraw Display.blank).advance

/-- Toggle one pixel and record a collision when it was 1 (43_display.md R212). -/
def togglePixel (acc : Display × Bool) (y : Row) (x : Col) : Display × Bool :=
  (acc.1.setPixel y x (!acc.1.pixel y x), acc.2 || acc.1.pixel y x)

/-- One sprite byte drawn in row `y` from column `x`: columns c = 0..7 in order, each under a set
bit toggled (43_display.md R212, R213). -/
def drawRow (x y : Nat) (b : Byte) (acc : Display × Bool) : Display × Bool :=
  (List.range 8).foldl
    (fun acc c => if spriteBit b c then togglePixel acc (rowOf y) (colOf (x + c)) else acc) acc

/-- The sprite bytes drawn in rows `y`, `y + 1`, ... (43_display.md R212). -/
def drawRows (x : Nat) : Nat → List Byte → Display × Bool → Display × Bool
  | _, [], acc => acc
  | y, b :: bs, acc => drawRows x (y + 1) bs (drawRow x y b acc)

/-- DXYN DRW VX, VY, N: the coordinates are latched before VF is written (43_display.md R212);
`N = 0` draws nothing, clears VF, sets `dirty` and advances (R215). -/
def execDrw (x y : Reg) (n : Nat) (s : State) : Host.Outcome State Fault Refusal :=
  match s.readBytes (s.effAddr 0) n with
  | none => .fault .addressOutOfRange
  | some bytes =>
    let drawn := drawRows (s.getV x).toNat (s.getV y).toNat bytes (s.disp, false)
    .next ((s.redraw drawn.1).setV 0xF (collisionFlag drawn.2)).advance

end Sys2Proof.Machine
end

