-- ==== Sys2Proof/Machine/InputTimers.lean ====
section
/-! DEFINITION. Key-input and timer instructions (44_input_timers.md sections 1 and 2). -/

namespace Sys2Proof.Machine

/-- EX9E SKP VX: skip if key `V[X]` is pressed; no key above 0xF (44_input_timers.md R231). -/
def execSkp (x : Reg) (s : State) : Host.Outcome State Fault Refusal :=
  match keyOf (s.getV x) with
  | none => .fault .keyIndexOutOfRange
  | some k => .next (s.skipIf (s.pressed k))

/-- EXA1 SKNP VX: skip if key `V[X]` is not pressed (44_input_timers.md R232). -/
def execSknp (x : Reg) (s : State) : Host.Outcome State Fault Refusal :=
  match keyOf (s.getV x) with
  | none => .fault .keyIndexOutOfRange
  | some k => .next (s.skipIf (!s.pressed k))

/-- FX07 LD VX, DT: `dt` before this step's tick (44_input_timers.md R233). -/
def execLdVxDt (x : Reg) (s : State) : Host.Outcome State Fault Refusal :=
  .next (s.setV x s.dt).advance

/-- FX0A LD VX, K: a no-advance poll while no key is pressed, else one of the pressed keys
(44_input_timers.md R234; log 4). -/
def execLdVxK (x : Reg) (s : State) : Host.Outcome State Fault Refusal :=
  match s.pressedKeys with
  | [] => .next s
  | k :: ks => .next (s.drawn.setV x (keyByte (pickKey (Config.drawKey s.draws) k ks))).advance

/-- FX15 LD DT, VX (44_input_timers.md R235). -/
def execLdDtVx (x : Reg) (s : State) : Host.Outcome State Fault Refusal :=
  .next (s.setDt (s.getV x)).advance

/-- FX18 LD ST, VX (44_input_timers.md R236). -/
def execLdStVx (x : Reg) (s : State) : Host.Outcome State Fault Refusal :=
  .next (s.setSt (s.getV x)).advance

end Sys2Proof.Machine
end

