-- ==== Sys2Proof/Machine/MemoryOps.lean ====
section
/-! DEFINITION. Address-register and memory-block instructions (42_memory_ops.md). None of them
but ANNN, FX1E and FX29 changes `I` (R190). -/

namespace Sys2Proof.Machine

/-- ANNN LD I, NNN (42_memory_ops.md R191). -/
def execLdI (nnn : Word) (s : State) : Host.Outcome State Fault Refusal := .next (s.setI nnn).advance

/-- FX1E ADD I, VX: the 16-bit sum; VF is not written (42_memory_ops.md R192). -/
def execAddI (x : Reg) (s : State) : Host.Outcome State Fault Refusal :=
  .next (s.setI (s.I + zext16 (s.getV x))).advance

/-- FX29 LD F, VX (42_memory_ops.md R193). -/
def execLdF (x : Reg) (s : State) : Host.Outcome State Fault Refusal :=
  .next (s.setI (glyphAddr (s.getV x))).advance

/-- Store bytes at `I`, `I + 1`, ... and advance (42_memory_ops.md R190, R194, R195). -/
def storeAtI (bytes : List Byte) (s : State) : Host.Outcome State Fault Refusal :=
  match s.writeBytes (s.effAddr 0) bytes with
  | none => .fault .addressOutOfRange
  | some t => .next t.advance

/-- FX33 LD B, VX: the three decimal digits (42_memory_ops.md R194). -/
def execLdB (x : Reg) (s : State) : Host.Outcome State Fault Refusal :=
  storeAtI (bcdDigits (s.getV x)) s

/-- FX55 LD [I], VX: registers V0..VX (42_memory_ops.md R195). -/
def execStoreRegs (x : Reg) (s : State) : Host.Outcome State Fault Refusal :=
  storeAtI (s.regsUpTo x) s

/-- FX65 LD VX, [I]: registers V0..VX (42_memory_ops.md R196). -/
def execLoadRegs (x : Reg) (s : State) : Host.Outcome State Fault Refusal :=
  match s.readBytes (s.effAddr 0) (x.val + 1) with
  | none => .fault .addressOutOfRange
  | some bytes => .next (s.setRegs bytes).advance

end Sys2Proof.Machine
end

