-- ==== Sys2Proof/Machine/Step.lean ====
section
/-! DEFINITION. The step (40_dispatch.md R120), and how a word is placed for the next one. -/

namespace Sys2Proof.Machine

/-- `Step()`: CHECK, FETCH, DECODE, HALT, EXECUTE, TICK (40_dispatch.md R120). -/
def step (s : State) : Host.Outcome State Fault Refusal :=
  if s.terminate then .next s.stayHalted
  else
    match s.fetchWord with
    | none => .fault .addressOutOfRange
    | some op =>
      match decodeWord op with
      | .error _ => .next s.haltInvalidOpcode
      | .ok i => finishStep (exec i s)

/-- `s` with the instruction whose bits are `w` stored where `step` fetches next. The halt flag is
cleared, since a halted CORE fetches nothing (40_dispatch.md R121); where memory has no byte at
`pc` or `pc + 1`, `pc` is set to the load address 0x200. The rest is left as it is. -/
def State.withFetchWord (s : State) (nbits w : Nat) : State :=
  let op : Word := BitVec.ofNat 16 (w % 2 ^ nbits)
  let running := { s with terminate := false }
  match running.placeWord op with
  | some t => t
  | none => ((running.setPc 0x200).placeWord op).getD running

end Sys2Proof.Machine
end

