-- ==== Sys2Proof/Machine/HostPort.lean ====
section
/-! DEFINITION. The host's commands and ports (70_reset_and_hazards.md R290 to R297). -/

namespace Sys2Proof.Machine

/-- `MAX_LOAD` (00_scope.md R6). -/
def maxLoad : Nat := 3584

/-- Copy bytes verbatim from physical address `a` upward (70_reset_and_hazards.md R294). -/
def Memory.writeAll (p : Config.Params) : Memory → Nat → List Byte → Memory
  | m, _, [] => m
  | m, a, b :: bs => Memory.writeAll p (Memory.write p m a b) (a + 1) bs

/-- `Load(b)`: `mem[0x200 + i] <- b[i]` and nothing else; refused above `MAX_LOAD`
(70_reset_and_hazards.md R294, R295). -/
def hostLoad (b : List Byte) (s : State) : Host.Outcome State Fault Refusal :=
  if b.length ≤ maxLoad then .next { s with mem := Memory.writeAll s.params s.mem 0x200 b }
  else .refused .loadTooLong

/-- `set_key(k, level)`: `keys[k] <- level` (70_reset_and_hazards.md R296). -/
def State.hostSetKey (s : State) (k : Key) (level : Bool) : State :=
  { s with keys := s.keys.set k level }

/-- `clear_dirty`: `dirty <- 0` (10_state.md R41). -/
def State.hostClearDirty (s : State) : State := { s with dirty := false }

/-- The display port: `disp` and `dirty`, read-only (70_reset_and_hazards.md R296). -/
def State.displayPort (s : State) : Display × Bool := (s.disp, s.dirty)

/-- The exit port: `terminate`, read-only (70_reset_and_hazards.md R296). -/
def State.exitPort (s : State) : Bool := s.terminate

/-- The tone output of the last step (10_state.md R47; log 6). -/
def State.tonePort (s : State) : Bool := s.tone

/-- The host's commands (70_reset_and_hazards.md R296). -/
inductive Command where
  | reset
  | load (b : List Byte)
  | step
  | setKey (k : Key) (level : Bool)
  | clearDirty
  deriving DecidableEq, Repr

/-- One command after the first reset. -/
def runCommand (c : Command) (s : State) : Host.Outcome State Fault Refusal :=
  match c with
  | .reset => .next s.hostReset
  | .load b => hostLoad b s
  | .step => Sys2Proof.Machine.step s
  | .setKey k level => .next (s.hostSetKey k level)
  | .clearDirty => .next s.hostClearDirty

/-- Commands one at a time, in order; a fault or a refusal ends the run (60_exceptions.md R266,
70_reset_and_hazards.md R297). -/
def runCommands : List Command → State → Host.Outcome State Fault Refusal
  | [], s => .next s
  | c :: cs, s =>
    match runCommand c s with
    | .next t => runCommands cs t
    | .fault f => .fault f
    | .refused r => .refused r

/-- A run of a machine with parameters `p`: reset is the required first command
(70_reset_and_hazards.md R292). -/
def session (p : Config.Params) : List Command → Host.Outcome State Fault Refusal
  | .reset :: cs => runCommands cs (State.resetWith p)
  | _ => .refused .beforeFirstReset

end Sys2Proof.Machine
end

