-- ==== Sys2Proof/Safety.lean ====
section
/-! DEFINITION. What claims speak of: the invariant, what a step leaves unchanged, and how a run
ends. -/

namespace Sys2Proof.Machine

/-- The invariant of the model: memory is in its canonical form, so that equal memories are equal
lists. Every other field is legal by its type. -/
abbrev State.wf (s : State) : Prop := Memory.wf s.params s.mem

/-- The parts of the state a frame speaks of (10_state.md R30). -/
inductive Part where
  | mem | V | I | pc | stack | sp | dt | st | disp | dirty | keys | terminate
  | tone | draws | params
  deriving DecidableEq, Repr

/-- A part holds the same in two states. Memory is compared by reading every byte of it. -/
def Part.same : Part → State → State → Prop
  | .mem, s, t => ∀ q, q < 4096 → t.memByte q = s.memByte q
  | .V, s, t => ∀ r, t.getV r = s.getV r
  | .I, s, t => t.I = s.I
  | .pc, s, t => t.pc = s.pc
  | .stack, s, t => t.stack = s.stack
  | .sp, s, t => t.sp = s.sp
  | .dt, s, t => t.dt = s.dt
  | .st, s, t => t.st = s.st
  | .disp, s, t => t.disp = s.disp
  | .dirty, s, t => t.dirty = s.dirty
  | .keys, s, t => t.keys = s.keys
  | .terminate, s, t => t.terminate = s.terminate
  | .tone, s, t => t.tone = s.tone
  | .draws, s, t => t.draws = s.draws
  | .params, s, t => t.params = s.params

/-- Every part but the listed ones is unchanged: the frame of an instruction. -/
def SameBut (changed : List Part) (s t : State) : Prop := ∀ p, p ∉ changed → p.same s t

/-- Apply a change to the next state of an outcome. -/
def mapNext (f : State → State) : Host.Outcome State Fault Refusal →
    Host.Outcome State Fault Refusal
  | .next t => .next (f t)
  | .fault e => .fault e
  | .refused r => .refused r

/-- Some of the `n` bytes from `I` upward are at an address memory lacks (20_memory.md R62). -/
def State.outOfRange (s : State) (n : Nat) : Bool :=
  decide (s.params.addrPolicy = .fault) && decide (0 < n) && decide (0xFFF < s.I.toNat + (n - 1))

/-- The CORE is halted (70_reset_and_hazards.md R301 a). -/
def State.halted (s : State) : Bool := s.terminate

/-- The CORE is at a self-jump: the word at `pc` is 1NNN with `NNN = pc`
(70_reset_and_hazards.md R301 c). -/
def State.atSelfJump (s : State) : Bool :=
  !s.terminate && decide (s.fetchWord = some (encode (.jp s.pc))) && decide (s.pc.toNat ≤ 0xFFF)

/-- The idle fixed point: a self-jump with both timers at 0 (70_reset_and_hazards.md R301 c). -/
def State.idle (s : State) : Bool := s.atSelfJump && decide (s.dt = 0) && decide (s.st = 0)

/-- A step that gives a next state: neither a model fault nor a refusal. -/
def StepCompletes (s : State) : Prop := ∃ t, step s = .next t

/-- A safe run of `n` steps: every step of it gives a next state (60_exceptions.md R266). -/
def RunCompletes : Nat → State → Prop
  | 0, _ => True
  | n + 1, s => ∃ t, step s = .next t ∧ RunCompletes n t

end Sys2Proof.Machine

namespace Sys2Proof

open Sys2Proof.Machine

/-- The state a form's rule names as written (40_dispatch.md R126: "An instruction writes only the
state its rule names"; R131 to R138, 41_arith.md R162 to R173, 42_memory_ops.md R191 to R196,
43_display.md R211, R212, 44_input_timers.md R231 to R236). `draws` is the model's own. -/
def Instr.writes : Instr → List Part
  | .cls => [.disp, .dirty, .pc]
  | .ret => [.sp, .pc]
  | .call _ => [.stack, .sp, .pc]
  | .jp _ | .jpV0 _ | .seImm _ _ | .sneImm _ _ | .seReg _ _ | .sneReg _ _ | .skp _ | .sknp _ => [.pc]
  | .ldImm _ _ | .addImm _ _ | .ldReg _ _ | .orReg _ _ | .andReg _ _ | .xorReg _ _ | .addReg _ _
  | .subReg _ _ | .shr _ _ | .subn _ _ | .shl _ _ | .ldVxDt _ | .loadRegs _ => [.V, .pc]
  | .rnd _ _ | .ldVxK _ => [.V, .draws, .pc]
  | .ldI _ | .addI _ | .ldF _ => [.I, .pc]
  | .drw _ _ _ => [.V, .disp, .dirty, .pc]
  | .ldDtVx _ => [.dt, .pc]
  | .ldStVx _ => [.st, .pc]
  | .ldB _ | .storeRegs _ => [.mem, .pc]

/-- The "reads" column of the register table (10_state.md R33). -/
def Instr.readsReg : Instr → Reg → Bool
  | .seImm x _, r | .sneImm x _, r | .addImm x _, r | .shr x _, r | .shl x _, r => r == x
  | .seReg x y, r | .sneReg x y, r | .orReg x y, r | .andReg x y, r | .xorReg x y, r
  | .addReg x y, r | .subReg x y, r | .subn x y, r | .drw x y _, r => r == x || r == y
  | .ldReg _ y, r => r == y
  | .jpV0 _, r => r == 0
  | .skp x, r | .sknp x, r | .ldDtVx x, r | .ldStVx x, r | .addI x, r | .ldF x, r | .ldB x, r => r == x
  | .storeRegs x, r => decide (r.val ≤ x.val)
  | .cls, _ | .ret, _ | .jp _, _ | .call _, _ | .ldImm _ _, _ | .ldI _, _ | .rnd _ _, _
  | .ldVxDt _, _ | .ldVxK _, _ | .loadRegs _, _ => false

/-- The "writes" column of the register table (10_state.md R33). -/
def Instr.writesReg : Instr → Reg → Bool
  | .ldImm x _, r | .addImm x _, r | .ldReg x _, r | .orReg x _, r | .andReg x _, r | .xorReg x _, r
  | .rnd x _, r | .ldVxDt x, r | .ldVxK x, r => r == x
  | .addReg x _, r | .subReg x _, r | .subn x _, r | .shr x _, r | .shl x _, r => r == x || r == 0xF
  | .drw _ _ _, r => r == 0xF
  | .loadRegs x, r => decide (r.val ≤ x.val)
  | .cls, _ | .ret, _ | .jp _, _ | .call _, _ | .jpV0 _, _ | .seImm _ _, _ | .sneImm _ _, _
  | .seReg _ _, _ | .sneReg _ _, _ | .skp _, _ | .sknp _, _ | .ldI _, _ | .addI _, _ | .ldF _, _
  | .ldDtVx _, _ | .ldStVx _, _ | .ldB _, _ | .storeRegs _, _ => false

/-- The model faults and their conditions (60_exceptions.md R265): "No other condition raises a
model fault". -/
def Instr.faultOf (i : Instr) (s : State) : Option Fault :=
  match i with
  | .ret => if s.sp = 0 then some .stackUnderflow else none
  | .call _ => if s.sp = 16 then some .stackOverflow else none
  | .drw _ _ n => if s.outOfRange n then some .addressOutOfRange else none
  | .ldB _ => if s.outOfRange 3 then some .addressOutOfRange else none
  | .storeRegs x | .loadRegs x => if s.outOfRange (x.val + 1) then some .addressOutOfRange else none
  | .skp x | .sknp x => if 0xF < (s.getV x).toNat then some .keyIndexOutOfRange else none
  | .cls | .jp _ | .jpV0 _ | .seImm _ _ | .sneImm _ _ | .seReg _ _ | .sneReg _ _ => none
  | .ldImm _ _ | .addImm _ _ | .ldReg _ _ | .orReg _ _ | .andReg _ _ | .xorReg _ _ | .addReg _ _
  | .subReg _ _ | .shr _ _ | .subn _ _ | .shl _ _ | .rnd _ _ => none
  | .ldI _ | .addI _ | .ldF _ | .ldVxDt _ | .ldVxK _ | .ldDtVx _ | .ldStVx _ => none

end Sys2Proof
end

