-- ==== Sys2Proof/Certificates/Slice0/Obligations.lean ====
section
/-! DEFINITION. The statements for the provers. A frame is said by `SameBut`: every part of the
state but the listed ones is unchanged, memory compared by reading every byte of it.

Where a clause rests on a decision of 92_eei_decisions.md (the spec's own choice, not a statement of
its source), the docstring names the decision, and the statement's basis is 'derived'. -/

open Sys2Proof Sys2Proof.Machine

/-! ## Encoding -/

/-- Decoding the canonical word of a well-formed instruction, or its two bytes in memory order, gives
the instruction back with every operand (30_encoding.md sections 1 to 3). -/
def Obligations.DecodeOfEncodeIsIdentity : Prop :=
  ∀ (i : Instr) (rest : List Byte), i.wf = true →
    decodeWord (encode i) = .ok i ∧ decode (encodeBytes i ++ rest) = .ok (i, rest)

/-- A decoded instruction is well formed, and encoding it gives the word back with the bits the
decoder ignores cleared: `op[11:8]` of 00E0 and 00EE, `op[3:0]` of 5XY0 and 9XY0 (the ignored bits
are decision D3). -/
def Obligations.EncodeOfDecodeIsCanonicalSpelling : Prop :=
  ∀ (op : Word) (i : Instr), decodeWord op = .ok i →
    i.wf = true ∧
    (op.toNat / 0x1000 = 0x0 → encode i = op &&& 0xF0FF) ∧
    (op.toNat / 0x1000 = 0x5 ∨ op.toNat / 0x1000 = 0x9 → encode i = op &&& 0xFFF0) ∧
    (op.toNat / 0x1000 ≠ 0x0 ∧ op.toNat / 0x1000 ≠ 0x5 ∧ op.toNat / 0x1000 ≠ 0x9 → encode i = op)

/-- Families 0x8, 0xE and 0xF: the sub-opcode selects the form, X is `op[11:8]` and Y is `op[7:4]`;
every other value is invalid (30_encoding.md R97, R98, R99). -/
def Obligations.SubOpcodeFamiliesDecodeAsListed : Prop :=
  ∀ (op : Word) (x y : Reg),
    x.val = op.toNat / 0x100 % 0x10 → y.val = op.toNat / 0x10 % 0x10 →
    (op.toNat / 0x1000 = 0x8 → decodeWord op =
      match [(0x0, Instr.ldReg x y), (0x1, .orReg x y), (0x2, .andReg x y), (0x3, .xorReg x y),
        (0x4, .addReg x y), (0x5, .subReg x y), (0x6, .shr x y), (0x7, .subn x y),
        (0xE, .shl x y)].lookup (op.toNat % 0x10) with
      | some i => .ok i
      | none => .error (.invalidOpcode op)) ∧
    (op.toNat / 0x1000 = 0xE → decodeWord op =
      match [(0x9E, Instr.skp x), (0xA1, .sknp x)].lookup (op.toNat % 0x100) with
      | some i => .ok i
      | none => .error (.invalidOpcode op)) ∧
    (op.toNat / 0x1000 = 0xF → decodeWord op =
      match [(0x07, Instr.ldVxDt x), (0x0A, .ldVxK x), (0x15, .ldDtVx x), (0x18, .ldStVx x),
        (0x1E, .addI x), (0x29, .ldF x), (0x33, .ldB x), (0x55, .storeRegs x),
        (0x65, .loadRegs x)].lookup (op.toNat % 0x100) with
      | some i => .ok i
      | none => .error (.invalidOpcode op))

/-- The other families: family 0x0 holds 00E0 and 00EE by the low byte alone and nothing else (D2,
D3); families 0x1 to 0x7 and 0x9 to 0xD decode by the family nibble, with the operand fields of
30_encoding.md R91 (the ignored `op[3:0]` of families 0x5 and 0x9 is D3). -/
def Obligations.PlainFamiliesDecodeAsListed : Prop :=
  ∀ (op nnn : Word) (nn : Byte) (x y : Reg),
    nnn.toNat = op.toNat % 0x1000 → nn.toNat = op.toNat % 0x100 →
    x.val = op.toNat / 0x100 % 0x10 → y.val = op.toNat / 0x10 % 0x10 →
    (op.toNat / 0x1000 = 0x0 → decodeWord op =
      match [(0xE0, Instr.cls), (0xEE, .ret)].lookup (op.toNat % 0x100) with
      | some i => .ok i
      | none => .error (.invalidOpcode op)) ∧
    ∀ f i, (f, i) ∈ [(0x1, Instr.jp nnn), (0x2, .call nnn), (0x3, .seImm x nn), (0x4, .sneImm x nn),
      (0x5, .seReg x y), (0x6, .ldImm x nn), (0x7, .addImm x nn), (0x9, .sneReg x y), (0xA, .ldI nnn),
      (0xB, .jpV0 nnn), (0xC, .rnd x nn), (0xD, .drw x y (op.toNat % 0x10))] →
      op.toNat / 0x1000 = f → decodeWord op = .ok i

/-- Every word decodes to exactly one row of the opcode map, the one whose mask and fixed bits it
matches, or matches none and is INVALID (30_encoding.md section 3: R106 is marked derived; that 0NNN
is no form is D2, the bits a mask leaves out are D3; log 8). -/
def Obligations.EveryWordMatchesOneRowOrIsInvalid : Prop :=
  ∀ op : Word,
    (∀ i, decodeWord op = .ok i →
      i.key ∈ opcodeTable ∧ ∀ r ∈ opcodeTable, (op &&& r.1 = r.2 ↔ r = i.key)) ∧
    (decodeWord op = .error (.invalidOpcode op) ↔ ∀ r ∈ opcodeTable, op &&& r.1 ≠ r.2) ∧
    decodeWord op ≠ .error .truncated

/-- Words written out from the spec's own examples decode to the instructions they stand for
(40_dispatch.md R131 to R138, 41_arith.md R162 to R173, 42_memory_ops.md R191 to R196, 43_display.md
R211, R212, 44_input_timers.md R231 to R236, 95_test_vectors.md 2.1). That 0x5121 is 5XY0, its `op[3:0]`
ignored, is D3 (log 8). -/
def Obligations.SampleWordsDecode : Prop :=
  decodeWord 0x00E0 = .ok .cls ∧ decodeWord 0x00EE = .ok .ret ∧ decodeWord 0x1234 = .ok (.jp 0x234) ∧
  decodeWord 0x220A = .ok (.call 0x20A) ∧ decodeWord 0x4105 = .ok (.sneImm 1 0x05) ∧
  decodeWord 0x8AB4 = .ok (.addReg 0xA 0xB) ∧ decodeWord 0x8127 = .ok (.subn 1 2) ∧
  decodeWord 0xC10F = .ok (.rnd 1 0x0F) ∧ decodeWord 0xA300 = .ok (.ldI 0x300) ∧
  decodeWord 0xF265 = .ok (.loadRegs 2) ∧ decodeWord 0xD012 = .ok (.drw 0 1 2) ∧
  decodeWord 0xE29E = .ok (.skp 2) ∧ decodeWord 0xF418 = .ok (.ldStVx 4) ∧
  decodeWord 0x5121 = .ok (.seReg 1 2) ∧ decodeWord 0x8128 = .error (.invalidOpcode 0x8128)

/-! ## The step -/

/-- A running CORE whose bytes at `pc` decode to an instruction executes exactly that instruction and
then ticks; a model fault of the instruction is the step's (no instruction refuses:
`ModelFaultsExactlyWhereListed`) (40_dispatch.md section 1;
that the tick runs on every executed step is D11). -/
def Obligations.StepRunsDecodedInstruction : Prop :=
  ∀ (s : State) (op : Word) (i : Instr),
    s.terminate = false → s.fetchWord = some op → decodeWord op = .ok i →
    (∀ t, exec i s = .next t → step s = .next t.tick) ∧
    (∀ f, exec i s = .fault f → step s = .fault f)

/-- A step of a halted CORE changes nothing; its tone output is 0 (D12). -/
def Obligations.HaltedStepChangesNothing : Prop :=
  ∀ s : State, s.terminate = true →
    ∃ t, step s = .next t ∧ t.tone = false ∧ SameBut [.tone] s t

/-- Halt entry: on an invalid word the step sets `terminate`, puts out tone 0 and changes nothing
else: `pc` keeps the address of the word, no tick runs (40_dispatch.md R124, 60_exceptions.md
R262). -/
def Obligations.InvalidWordHaltsAndChangesNothingElse : Prop :=
  ∀ (s : State) (op : Word) (e : DecodeError),
    s.terminate = false → s.fetchWord = some op → decodeWord op = .error e →
    ∃ t, step s = .next t ∧ t.terminate = true ∧ t.tone = false ∧
      SameBut [.terminate, .tone] s t

/-- The fetch is big-endian: the byte at `pc` is bits 15..8 and the byte at `pc + 1` bits 7..0, at
any `pc`, odd or even. Under `Wrap12` both addresses are taken modulo 4096, `pc + 1` without a
16-bit wrap first; under `Fault` a fetch at `pc >= 0xFFF` is the fault of the step (D5, D7). -/
def Obligations.FetchIsBigEndianAtPc : Prop :=
  ∀ s : State,
    (s.pc.toNat < 0xFFF ∨ s.params.addrPolicy = .wrap12 →
      ∃ w, s.fetchWord = some w ∧
        w.toNat = (s.memByte (s.pc.toNat % 4096)).toNat * 256 +
          (s.memByte ((s.pc.toNat + 1) % 4096)).toNat) ∧
    (s.params.addrPolicy = .fault → 0xFFF ≤ s.pc.toNat → s.terminate = false →
      step s = .fault .addressOutOfRange)

/-- The tick counts each nonzero timer down by one, leaves a timer at 0 alone, and puts out the tone
exactly when it found `st = 1`; it changes nothing else (44_input_timers.md section 3; D11, D24,
D26). -/
def Obligations.TickCountsBothTimersDown : Prop :=
  ∀ s : State,
    s.tick.dt.toNat = s.dt.toNat - 1 ∧ s.tick.st.toNat = s.st.toNat - 1 ∧
    (s.tick.tone = true ↔ s.st = 1) ∧ SameBut [.dt, .st, .tone] s s.tick

/-- The tone output of a step is 1 exactly when the step executed an instruction that left `st = 1`
for the tick: never on a step that halts or finds the CORE halted (D24). -/
def Obligations.ToneExactlyWhenSoundTimerRunsOut : Prop :=
  ∀ s t : State, step s = .next t →
    (t.tone = true ↔ s.terminate = false ∧ ∃ op i u,
      s.fetchWord = some op ∧ decodeWord op = .ok i ∧ exec i s = .next u ∧ u.st = 1)

/-- A self-jump runs its timers down and stays: after `max(dt, st)` steps the run is at the idle fixed
point, with only the timers (and the tone output) changed, and every later step leaves the whole
state unchanged but for the tone output, which is 0 (D25). -/
def Obligations.SelfJumpReachesIdleFixedPoint : Prop :=
  ∀ s : State, s.atSelfJump = true →
    ∃ t, Sys2Proof.core.run (max s.dt.toNat s.st.toNat) s = .next t ∧
      t.idle = true ∧ SameBut [.dt, .st, .tone] s t ∧
      ∀ n, ∃ u, Sys2Proof.core.run (n + 1) t = .next u ∧ u.tone = false ∧ SameBut [.tone] t u

/-! ## Invariants and whole-machine rules -/

/-- Every step keeps memory in its canonical form, from every state that has it. The form is the
model's own choice (log 11); that every listed address is below 4096 is 20_memory.md section 1. -/
def Obligations.StepKeepsMemoryCanonical : Prop :=
  ∀ s t : State, s.wf → step s = .next t → t.wf

/-- Reset memory is in the canonical form, whatever the parameters are, and in `State.reset` among
them. The form is the model's own choice (log 11), as are the parameters of `State.reset` (log 1,
log 2). -/
def Obligations.ResetMemoryIsCanonical : Prop :=
  ∀ p : Config.Params, (State.resetWith p).wf ∧ State.reset.wf

/-- Every host command keeps memory in its canonical form. The form is the model's own choice
(log 11); that every listed address is below 4096 is 20_memory.md section 1. -/
def Obligations.HostCommandsKeepMemoryCanonical : Prop :=
  ∀ (c : Command) (s t : State), s.wf → runCommand c s = .next t → t.wf

/-- An instruction writes only the state its rule names (D18): every other part is unchanged. -/
def Obligations.InstructionsWriteOnlyNamedState : Prop :=
  ∀ (i : Instr) (s t : State), exec i s = .next t → SameBut i.writes s t

/-- The register table: an instruction changes no register outside its "writes" column, and its
outcome depends on no register outside its "reads" column: with another value in such a register
`r` it ends the same way, and every part and every register but `r` comes out the same (the table of
10_state.md section 2; the order of two writes is D4). -/
def Obligations.RegistersReadAndWrittenFollowTable : Prop :=
  ∀ (i : Instr) (s : State) (r : Reg),
    (∀ t, exec i s = .next t → i.writesReg r = false → t.getV r = s.getV r) ∧
    (i.readsReg r = false → ∀ b : Byte,
      (∀ t, exec i s = .next t → ∃ u, exec i (s.setV r b) = .next u ∧ SameBut [.V] t u ∧
        (∀ q, q ≠ r → u.getV q = t.getV q)) ∧
      (∀ f, exec i s = .fault f → exec i (s.setV r b) = .fault f))

/-- The key levels: `set_key` writes one and nothing else, no step writes any, and EX9E, EXA1 and FX0A
read them, as the host set them, and no other instruction does (10_state.md R42). -/
def Obligations.KeysWrittenByHostReadByThreeForms : Prop :=
  (∀ (s : State) (k : Key) (l : Bool), SameBut [.keys] s (s.hostSetKey k l) ∧
    ∀ j, (s.hostSetKey k l).pressed j = if j = k then l else s.pressed j) ∧
  (∀ s t : State, step s = .next t → t.keys = s.keys) ∧
  (∀ (i : Instr) (s : State) (keys : Vector Bool 16),
    (∀ x, i ≠ .skp x ∧ i ≠ .sknp x ∧ i ≠ .ldVxK x) →
    exec i { s with keys := keys } = mapNext (fun t => { t with keys := keys }) (exec i s)) ∧
  (∀ (x : Reg) (s : State) (k : Key) (l : Bool), (s.getV x).toNat = k.val →
    (∃ t, exec (.skp x) (s.hostSetKey k l) = .next t ∧ t.pc = if l then s.pc + 4 else s.pc + 2) ∧
    (∃ t, exec (.sknp x) (s.hostSetKey k l) = .next t ∧ t.pc = if l then s.pc + 2 else s.pc + 4)) ∧
  (∀ (x : Reg) (s : State) (k : Key), (∀ j, s.pressed j = false) →
    ∃ t, exec (.ldVxK x) (s.hostSetKey k true) = .next t ∧ (t.getV x).toNat = k.val)

/-- The sound timer: FX18 and the tick write it and nothing else does, no instruction reads it, and the
tick turns it into nothing but its own next value and the tone (10_state.md R39). -/
def Obligations.SoundTimerReadByNoInstruction : Prop :=
  (∀ (x : Reg) (s : State), ∃ t, exec (.ldStVx x) s = .next t ∧ t.st = s.getV x) ∧
  (∀ s : State, s.tick.st.toNat = s.st.toNat - 1) ∧
  (∀ (i : Instr) (s t : State), exec i s = .next t → (∀ x, i ≠ .ldStVx x) → t.st = s.st) ∧
  (∀ (i : Instr) (s : State) (v : Byte), (∀ x, i ≠ .ldStVx x) →
    exec i (s.setSt v) = mapNext (fun t => t.setSt v) (exec i s)) ∧
  (∀ (x : Reg) (s : State) (v : Byte), exec (.ldStVx x) (s.setSt v) = exec (.ldStVx x) s) ∧
  (∀ (s : State) (v : Byte), SameBut [.st, .tone] s.tick (s.setSt v).tick)

/-- The delay timer: FX15 and the tick write it and nothing else does, FX07 reads it and no other
instruction does (10_state.md R38). -/
def Obligations.DelayTimerReadByOneForm : Prop :=
  (∀ (x : Reg) (s : State), ∃ t, exec (.ldDtVx x) s = .next t ∧ t.dt = s.getV x) ∧
  (∀ s : State, s.tick.dt.toNat = s.dt.toNat - 1) ∧
  (∀ (x : Reg) (s : State), ∃ t, exec (.ldVxDt x) s = .next t ∧ t.getV x = s.dt) ∧
  (∀ (i : Instr) (s t : State), exec i s = .next t → (∀ x, i ≠ .ldDtVx x) → t.dt = s.dt) ∧
  (∀ (i : Instr) (s : State) (v : Byte), (∀ x, i ≠ .ldDtVx x ∧ i ≠ .ldVxDt x) →
    exec i (s.setDt v) = mapNext (fun t => t.setDt v) (exec i s)) ∧
  (∀ (x : Reg) (s : State) (v : Byte), exec (.ldDtVx x) (s.setDt v) = exec (.ldDtVx x) s)

/-- The dirty flag: 00E0 and every DXYN that completes set it, no other instruction changes it, no
instruction reads it, no step clears it, and `clear_dirty` clears it and changes nothing else
(10_state.md R41). -/
def Obligations.DirtySetByDrawingClearedByHostOnly : Prop :=
  (∀ s t : State, exec .cls s = .next t → t.dirty = true) ∧
  (∀ (x y : Reg) (n : Nat) (s t : State), exec (.drw x y n) s = .next t → t.dirty = true) ∧
  (∀ (i : Instr) (s t : State), exec i s = .next t → i ≠ .cls → (∀ x y n, i ≠ .drw x y n) →
    t.dirty = s.dirty) ∧
  (∀ (i : Instr) (s : State) (d : Bool),
    exec i { s with dirty := d } =
      mapNext (fun t => if Part.dirty ∈ i.writes then t else { t with dirty := d }) (exec i s)) ∧
  (∀ s t : State, step s = .next t → s.dirty = true → t.dirty = true) ∧
  (∀ s : State, s.hostClearDirty.dirty = false ∧ SameBut [.dirty] s s.hostClearDirty)

/-- The halt flag is set by a step exactly on an invalid word, and no step clears it (D12). -/
def Obligations.TerminateSetExactlyByInvalidWord : Prop :=
  ∀ s t : State, step s = .next t →
    (t.terminate = true ↔ s.terminate = true ∨
      ∃ op, s.fetchWord = some op ∧ decodeWord op = .error (.invalidOpcode op))

/-- Memory is reached by the fetch, DXYN, FX33, FX55 and FX65 alone: every other instruction leaves
every byte unchanged and comes out the same whatever memory holds (20_memory.md section 1). -/
def Obligations.OtherFormsDoNotReachMemory : Prop :=
  ∀ (i : Instr) (s : State) (m : Memory),
    (∀ x y n, i ≠ .drw x y n) → (∀ x, i ≠ .ldB x ∧ i ≠ .storeRegs x ∧ i ≠ .loadRegs x) →
    exec i { s with mem := m } = mapNext (fun t => { t with mem := m }) (exec i s)

/-- An instruction raises a model fault exactly where 60_exceptions.md section 3 lists one, and of
the kind listed; it never refuses (D5, D8, D9). -/
def Obligations.ModelFaultsExactlyWhereListed : Prop :=
  ∀ (i : Instr) (s : State),
    (∀ f, exec i s = .fault f ↔ i.faultOf s = some f) ∧
    (i.faultOf s = none → ∃ t, exec i s = .next t) ∧
    (∀ r, exec i s ≠ .refused r)

/-- Under `Wrap12` no step faults on an address (20_memory.md section 2; the policy is D5). -/
def Obligations.Wrap12NeverFaultsOnAddress : Prop :=
  ∀ s : State, s.params.addrPolicy = .wrap12 → step s ≠ .fault .addressOutOfRange

/-! ## Memory -/

/-- A one-byte write changes the byte at the resolved address and nothing else, and the byte is then
read back: memory is a plain byte array without side effects (20_memory.md section 3). -/
def Obligations.ByteWriteChangesOneByte : Prop :=
  ∀ (s t : State) (a : Nat) (v : Byte), s.writeByte a v = some t →
    ∃ q, q < 4096 ∧ phys s.params.addrPolicy a = some q ∧ t.readByte a = some v ∧
      (∀ r, r ≠ q → t.memByte r = s.memByte r) ∧ SameBut [.mem] s t

/-- `Phys`: an address up to 0xFFF is itself; above it, `Fault` faults and `Wrap12` takes it modulo
4096, for a read and for a write alike (D5). -/
def Obligations.PhysResolvesByPolicy : Prop :=
  ∀ (s : State) (a : Nat) (v : Byte),
    (a ≤ 0xFFF → s.readByte a = some (s.memByte a)) ∧
    (0xFFF < a → s.params.addrPolicy = .fault → s.readByte a = none ∧ s.writeByte a v = none) ∧
    (0xFFF < a → s.params.addrPolicy = .wrap12 →
      s.readByte a = some (s.memByte (a % 4096)) ∧ s.writeByte a v = s.writeByte (a % 4096) v)

/-- Self-modifying code: two registers stored over the next instruction are the word the next fetch
reads, V0 first (D22; big-endian by 20_memory.md R64). -/
def Obligations.StoredBytesAreFetchedNext : Prop :=
  ∀ (x : Reg) (s t : State), 1 ≤ x.val → s.I = s.pc + 2 → s.pc.toNat < 0xFFD →
    exec (.storeRegs x) s = .next t →
    ∃ w, t.fetchWord = some w ∧ w.toNat = (s.getV 0).toNat * 256 + (s.getV 1).toNat

/-! ## Control transfer -/

/-- 1NNN: `pc` is `NNN`, with no advance added, and nothing else changes (40_dispatch.md R132). -/
def Obligations.JumpSetsPc : Prop :=
  ∀ (nnn : Word) (s : State),
    ∃ t, exec (.jp nnn) s = .next t ∧ t.pc = nnn ∧ SameBut [.pc] s t

/-- BNNN: `pc` is `NNN + V[0]`, not masked to 12 bits (D5, D7). -/
def Obligations.IndexedJumpAddsV0 : Prop :=
  ∀ (nnn : Word) (s : State), (Instr.jpV0 nnn).wf = true →
    ∃ t, exec (.jpV0 nnn) s = .next t ∧ t.pc.toNat = nnn.toNat + (s.getV 0).toNat ∧
      SameBut [.pc] s t

/-- 2NNN: with `sp < 16` the address of the 2NNN itself is pushed and `pc` is `NNN`; the other slots
keep their values; at `sp = 16` the step faults (D8). -/
def Obligations.CallPushesItsOwnAddress : Prop :=
  ∀ (nnn : Word) (s : State),
    (∀ _ : s.sp.val < 16,
      ∃ t, exec (.call nnn) s = .next t ∧ t.stack[s.sp.val] = s.pc ∧ t.sp.val = s.sp.val + 1 ∧
        t.pc = nnn ∧ (∀ j (_ : j < 16), j ≠ s.sp.val → t.stack[j] = s.stack[j]) ∧
        SameBut [.stack, .sp, .pc] s t) ∧
    (s.sp = 16 → exec (.call nnn) s = .fault .stackOverflow)

/-- 00EE: with `sp > 0` the depth falls by one and `pc` is the popped value plus 2; the slot keeps its
value; at `sp = 0` the step faults (D8). -/
def Obligations.ReturnPopsAndResumesAfterCall : Prop :=
  ∀ s : State,
    (∀ _ : 0 < s.sp.val,
      ∃ t, exec .ret s = .next t ∧ t.sp.val = s.sp.val - 1 ∧ t.pc = s.stack[s.sp.val - 1] + 2 ∧
        SameBut [.sp, .pc] s t) ∧
    (s.sp = 0 → exec .ret s = .fault .stackUnderflow)

/-- A 2NNN and the 00EE it lands on: after the two steps `pc` is the address before the call plus 2,
the depth is what it was, and every register is unchanged (95_test_vectors.md P-CALLRET; D8). -/
def Obligations.CallThenReturnResumesAfterCall : Prop :=
  ∀ (s t : State) (op op' nnn : Word), s.terminate = false → s.sp.val < 16 →
    s.fetchWord = some op → decodeWord op = .ok (.call nnn) → step s = .next t →
    t.fetchWord = some op' → decodeWord op' = .ok .ret →
    ∃ u, step t = .next u ∧ u.pc = s.pc + 2 ∧ SameBut [.pc, .stack, .dt, .st, .tone] s u ∧
      ∀ j (_ : j < 16), j ≠ s.sp.val → u.stack[j] = s.stack[j]

/-- 3XNN and 4XNN: `pc + 4` when `V[X]` equals (differs from) `NN`, else `pc + 2`, modulo 2^16
(40_dispatch.md R134, R135). -/
def Obligations.ImmediateSkips : Prop :=
  ∀ (x : Reg) (nn : Byte) (s : State),
    (∃ t, exec (.seImm x nn) s = .next t ∧ SameBut [.pc] s t ∧
      (s.getV x = nn → t.pc = s.pc + 4) ∧ (s.getV x ≠ nn → t.pc = s.pc + 2)) ∧
    (∃ t, exec (.sneImm x nn) s = .next t ∧ SameBut [.pc] s t ∧
      (s.getV x ≠ nn → t.pc = s.pc + 4) ∧ (s.getV x = nn → t.pc = s.pc + 2))

/-- 5XY0 and 9XY0: `pc + 4` when `V[X]` equals (differs from) `V[Y]`, else `pc + 2`; with `X = Y` the
first always skips and the second never (40_dispatch.md section 2; D3 is about their words). -/
def Obligations.RegisterSkips : Prop :=
  ∀ (x y : Reg) (s : State),
    (∃ t, exec (.seReg x y) s = .next t ∧ SameBut [.pc] s t ∧
      (s.getV x = s.getV y → t.pc = s.pc + 4) ∧ (s.getV x ≠ s.getV y → t.pc = s.pc + 2) ∧
      (x = y → t.pc = s.pc + 4)) ∧
    (∃ t, exec (.sneReg x y) s = .next t ∧ SameBut [.pc] s t ∧
      (s.getV x ≠ s.getV y → t.pc = s.pc + 4) ∧ (s.getV x = s.getV y → t.pc = s.pc + 2) ∧
      (x = y → t.pc = s.pc + 2))

/-! ## Registers and arithmetic -/

/-- 6XNN and 8XY0: `V[X]` is `NN` (`V[Y]`), every other register and everything else but `pc` is
unchanged (41_arith.md R162, R164). -/
def Obligations.RegisterLoads : Prop :=
  ∀ (x y : Reg) (nn : Byte) (s : State),
    (∃ t, exec (.ldImm x nn) s = .next t ∧ t.getV x = nn ∧ (∀ r, r ≠ x → t.getV r = s.getV r) ∧
      t.pc = s.pc + 2 ∧ SameBut [.V, .pc] s t) ∧
    (∃ t, exec (.ldReg x y) s = .next t ∧ t.getV x = s.getV y ∧
      (∀ r, r ≠ x → t.getV r = s.getV r) ∧ t.pc = s.pc + 2 ∧ SameBut [.V, .pc] s t)

/-- 7XNN: `V[X]` is `(V[X] + NN) mod 256`; VF is unchanged unless it is the destination
(41_arith.md R163). -/
def Obligations.AddImmediateWrapsWithoutCarry : Prop :=
  ∀ (x : Reg) (nn : Byte) (s : State),
    ∃ t, exec (.addImm x nn) s = .next t ∧
      (t.getV x).toNat = ((s.getV x).toNat + nn.toNat) % 256 ∧
      (∀ r, r ≠ x → t.getV r = s.getV r) ∧ t.pc = s.pc + 2 ∧ SameBut [.V, .pc] s t

/-- 8XY1, 8XY2 and 8XY3: bit by bit OR, AND and XOR of `V[X]` and `V[Y]` into `V[X]`; VF is unchanged
unless it is the destination (D18). -/
def Obligations.LogicForms : Prop :=
  ∀ (x y : Reg) (s : State), ∀ c ∈ [(Instr.orReg x y, or), (.andReg x y, and), (.xorReg x y, xor)],
    ∃ t, exec c.1 s = .next t ∧
      (∀ b, b < 8 → (t.getV x).getLsbD b = c.2 ((s.getV x).getLsbD b) ((s.getV y).getLsbD b)) ∧
      (∀ r, r ≠ x → t.getV r = s.getV r) ∧ t.pc = s.pc + 2 ∧ SameBut [.V, .pc] s t

/-- 8XY4: `V[X]` is the sum modulo 256; VF is the carry, 1 exactly when the sum exceeds 255, unless
`X = 0xF`, when VF holds the sum (the write order at `X = 0xF` is D4). -/
def Obligations.AddWithCarry : Prop :=
  ∀ (x y : Reg) (s : State),
    ∃ t, exec (.addReg x y) s = .next t ∧
      (t.getV x).toNat = ((s.getV x).toNat + (s.getV y).toNat) % 256 ∧
      (x ≠ 0xF → t.getV 0xF = if (s.getV x).toNat + (s.getV y).toNat > 255 then 1 else 0) ∧
      (∀ r, r ≠ x → r ≠ 0xF → t.getV r = s.getV r) ∧ t.pc = s.pc + 2 ∧ SameBut [.V, .pc] s t

/-- 8XY5 and 8XY7: `V[X]` is `V[X] - V[Y]` (`V[Y] - V[X]`) modulo 256; VF is 1 exactly when the
subtraction does not borrow, unless `X = 0xF`, when VF holds the difference (D4). -/
def Obligations.SubtractionsWithNotBorrow : Prop :=
  ∀ (x y : Reg) (s : State),
    (∃ t, exec (.subReg x y) s = .next t ∧
      (t.getV x).toNat = ((s.getV x).toNat + 256 - (s.getV y).toNat) % 256 ∧
      (x ≠ 0xF → t.getV 0xF = if (s.getV y).toNat > (s.getV x).toNat then 0 else 1) ∧
      (∀ r, r ≠ x → r ≠ 0xF → t.getV r = s.getV r) ∧ t.pc = s.pc + 2 ∧ SameBut [.V, .pc] s t) ∧
    (∃ t, exec (.subn x y) s = .next t ∧
      (t.getV x).toNat = ((s.getV y).toNat + 256 - (s.getV x).toNat) % 256 ∧
      (x ≠ 0xF → t.getV 0xF = if (s.getV x).toNat > (s.getV y).toNat then 0 else 1) ∧
      (∀ r, r ≠ x → r ≠ 0xF → t.getV r = s.getV r) ∧ t.pc = s.pc + 2 ∧ SameBut [.V, .pc] s t)

/-- 8XY6 and 8XYE: `V[X]` is shifted by one in place; VF is the bit shifted out, unless `X = 0xF`,
when VF holds the result (D4). `V[Y]` is neither read nor written. -/
def Obligations.ShiftsByOneInPlace : Prop :=
  ∀ (x y : Reg) (s : State),
    (∃ t, exec (.shr x y) s = .next t ∧ (t.getV x).toNat = (s.getV x).toNat / 2 ∧
      (x ≠ 0xF → (t.getV 0xF).toNat = (s.getV x).toNat % 2) ∧
      (∀ r, r ≠ x → r ≠ 0xF → t.getV r = s.getV r) ∧ t.pc = s.pc + 2 ∧ SameBut [.V, .pc] s t) ∧
    (∃ t, exec (.shl x y) s = .next t ∧ (t.getV x).toNat = (s.getV x).toNat * 2 % 256 ∧
      (x ≠ 0xF → (t.getV 0xF).toNat = (s.getV x).toNat / 128) ∧
      (∀ r, r ≠ x → r ≠ 0xF → t.getV r = s.getV r) ∧ t.pc = s.pc + 2 ∧ SameBut [.V, .pc] s t) ∧
    (∀ z, exec (.shr x z) s = exec (.shr x y) s ∧ exec (.shl x z) s = exec (.shl x y) s)

/-- CXNN: `V[X]` is the draw of this execution masked by `NN`, and the next draw is another one; no bit
clear in `NN` is set (the draw is D16, its counter log 5). -/
def Obligations.RandomByteIsMaskedDraw : Prop :=
  ∀ (x : Reg) (nn : Byte) (s : State),
    ∃ t, exec (.rnd x nn) s = .next t ∧ t.getV x = Config.drawByte s.draws &&& nn ∧
      t.getV x &&& ~~~nn = 0 ∧ t.draws = s.draws + 1 ∧ (∀ r, r ≠ x → t.getV r = s.getV r) ∧
      t.pc = s.pc + 2 ∧ SameBut [.V, .draws, .pc] s t

/-! ## Address register and memory blocks -/

/-- ANNN and FX29: `I` is `NNN`, or `V[X] * 5` with all 8 bits of `V[X]` (42_memory_ops.md R191,
R193). -/
def Obligations.AddressRegisterLoads : Prop :=
  ∀ (nnn : Word) (x : Reg) (s : State),
    (∃ t, exec (.ldI nnn) s = .next t ∧ t.I = nnn ∧ t.pc = s.pc + 2 ∧ SameBut [.I, .pc] s t) ∧
    (∃ t, exec (.ldF x) s = .next t ∧ t.I.toNat = (s.getV x).toNat * 5 ∧ t.pc = s.pc + 2 ∧
      SameBut [.I, .pc] s t)

/-- FX1E: `I` is `(I + V[X]) mod 2^16`, not masked to 12 bits; VF is not written (D6, D18). -/
def Obligations.AddToAddressRegister : Prop :=
  ∀ (x : Reg) (s : State),
    ∃ t, exec (.addI x) s = .next t ∧ t.I.toNat = (s.I.toNat + (s.getV x).toNat) % 0x10000 ∧
      t.pc = s.pc + 2 ∧ SameBut [.I, .pc] s t

/-- FX33: the hundreds, tens and ones of `V[X]` at `I`, `I + 1`, `I + 2`; every other byte and `I` are
unchanged; under `Fault` the step faults when `I + 2 > 0xFFF` (D5, D17). -/
def Obligations.DecimalDigitsStored : Prop :=
  ∀ (x : Reg) (s : State),
    (s.params.addrPolicy = .wrap12 ∨ s.I.toNat + 2 ≤ 0xFFF →
      ∃ t, exec (.ldB x) s = .next t ∧ t.pc = s.pc + 2 ∧ SameBut [.mem, .pc] s t ∧
        (∀ q, phys s.params.addrPolicy (s.effAddr 0) = some q →
          (t.memByte q).toNat = (s.getV x).toNat / 100) ∧
        (∀ q, phys s.params.addrPolicy (s.effAddr 1) = some q →
          (t.memByte q).toNat = (s.getV x).toNat / 10 % 10) ∧
        (∀ q, phys s.params.addrPolicy (s.effAddr 2) = some q →
          (t.memByte q).toNat = (s.getV x).toNat % 10) ∧
        ∀ q, (∀ k, k < 3 → phys s.params.addrPolicy (s.effAddr k) ≠ some q) →
          t.memByte q = s.memByte q) ∧
    (s.params.addrPolicy = .fault → 0xFFF < s.I.toNat + 2 →
      exec (.ldB x) s = .fault .addressOutOfRange)

/-- FX55: `V[k]` at `I + k` for `k = 0..X`; every other byte, every register and `I` are unchanged;
under `Fault` the step faults when `I + X > 0xFFF` (D5, D17). -/
def Obligations.RegistersStored : Prop :=
  ∀ (x : Reg) (s : State),
    (s.params.addrPolicy = .wrap12 ∨ s.I.toNat + x.val ≤ 0xFFF →
      ∃ t, exec (.storeRegs x) s = .next t ∧ t.pc = s.pc + 2 ∧ SameBut [.mem, .pc] s t ∧
        (∀ (k : Reg) (q : Nat), k ≤ x → phys s.params.addrPolicy (s.effAddr k.val) = some q →
          t.memByte q = s.getV k) ∧
        ∀ q, (∀ k, k ≤ x.val → phys s.params.addrPolicy (s.effAddr k) ≠ some q) →
          t.memByte q = s.memByte q) ∧
    (s.params.addrPolicy = .fault → 0xFFF < s.I.toNat + x.val →
      exec (.storeRegs x) s = .fault .addressOutOfRange)

/-- FX65: `V[k]` is the byte at `I + k` for `k = 0..X`; the other registers, memory and `I` are
unchanged; under `Fault` the step faults when `I + X > 0xFFF` (D5, D17). -/
def Obligations.RegistersLoaded : Prop :=
  ∀ (x : Reg) (s : State),
    (s.params.addrPolicy = .wrap12 ∨ s.I.toNat + x.val ≤ 0xFFF →
      ∃ t, exec (.loadRegs x) s = .next t ∧ t.pc = s.pc + 2 ∧ SameBut [.V, .pc] s t ∧
        (∀ k : Reg, k ≤ x → s.readByte (s.effAddr k.val) = some (t.getV k)) ∧
        (∀ k : Reg, x < k → t.getV k = s.getV k)) ∧
    (s.params.addrPolicy = .fault → 0xFFF < s.I.toNat + x.val →
      exec (.loadRegs x) s = .fault .addressOutOfRange)

/-! ## Display -/

/-- 00E0: every pixel is 0 and `dirty` is set, whatever the buffer held; VF is not written
(43_display.md R211). -/
def Obligations.ClearDisplayZeroesEveryPixel : Prop :=
  ∀ s : State,
    ∃ t, exec .cls s = .next t ∧ (∀ (y : Row) (x : Col), t.disp.pixel y x = false) ∧
      t.dirty = true ∧ t.pc = s.pc + 2 ∧ SameBut [.disp, .dirty, .pc] s t

/-- DXYN: with the sprite bytes readable, the pixel at column `(V[X] + c) mod 64` and row
`(V[Y] + r) mod 32` is toggled when bit `7 - c` of the byte at `I + r` is set (`r < N`, `c < 8`);
every pixel not under a set bit keeps its value; VF is 1 exactly when some set bit fell on a pixel
that was 1 before the instruction; `dirty` is set. Both coordinates are the register values before
VF is written (D4). Under `Fault` the step faults when `N >= 1` and `I + N - 1 > 0xFFF` (D5); that
`dirty` is set whatever changed is D20. -/
def Obligations.DrawTogglesSpriteAndReportsCollision : Prop :=
  ∀ (x y : Reg) (n : Nat) (s : State), (Instr.drw x y n).wf = true →
    (s.outOfRange n = false →
      ∃ t, exec (.drw x y n) s = .next t ∧
        (∀ (r c : Nat) (b : Byte), r < n → c < 8 → s.readByte (s.effAddr r) = some b →
          t.disp.pixel (rowOf ((s.getV y).toNat + r)) (colOf ((s.getV x).toNat + c)) =
            (s.disp.pixel (rowOf ((s.getV y).toNat + r)) (colOf ((s.getV x).toNat + c)) ^^
              b.getLsbD (7 - c))) ∧
        (∀ (py : Row) (px : Col),
          (∀ r c, r < n → c < 8 →
            ¬ (py.val = ((s.getV y).toNat + r) % 32 ∧ px.val = ((s.getV x).toNat + c) % 64)) →
          t.disp.pixel py px = s.disp.pixel py px) ∧
        (t.getV 0xF = 0 ∨ t.getV 0xF = 1) ∧
        (t.getV 0xF = 1 ↔ ∃ r c b, r < n ∧ c < 8 ∧ s.readByte (s.effAddr r) = some b ∧
          b.getLsbD (7 - c) = true ∧
          s.disp.pixel (rowOf ((s.getV y).toNat + r)) (colOf ((s.getV x).toNat + c)) = true) ∧
        (∀ q, q ≠ 0xF → t.getV q = s.getV q) ∧ t.dirty = true ∧ t.pc = s.pc + 2 ∧
        SameBut [.V, .disp, .dirty, .pc] s t) ∧
    (s.outOfRange n = true → exec (.drw x y n) s = .fault .addressOutOfRange)

/-- Display coordinates are toroidal: registers that agree modulo 64 (the column) and modulo 32 (the
row) draw the same picture with the same collision flag, and whether DXYN faults does not depend on
its position (43_display.md R210). -/
def Obligations.DrawCoordinatesAreToroidal : Prop :=
  ∀ (x y : Reg) (n : Nat) (s s' : State), SameBut [.V] s s' →
    (s'.getV x).toNat % 64 = (s.getV x).toNat % 64 → (s'.getV y).toNat % 32 = (s.getV y).toNat % 32 →
    (∀ t, exec (.drw x y n) s = .next t →
      ∃ t', exec (.drw x y n) s' = .next t' ∧ t'.disp = t.disp ∧ t'.getV 0xF = t.getV 0xF) ∧
    (∀ f, exec (.drw x y n) s = .fault f → exec (.drw x y n) s' = .fault f)

/-- DXYN with `N = 0` completes in every state: it draws nothing, clears VF, sets `dirty` and advances
(D20). -/
def Obligations.DrawOfHeightZeroClearsFlag : Prop :=
  ∀ (x y : Reg) (s : State),
    ∃ t, exec (.drw x y 0) s = .next t ∧ t.getV 0xF = 0 ∧ t.dirty = true ∧ t.pc = s.pc + 2 ∧
      (∀ q, q ≠ 0xF → t.getV q = s.getV q) ∧ SameBut [.V, .dirty, .pc] s t

/-! ## Keys and timers -/

/-- EX9E and EXA1: with `V[X] <= 0xF`, exactly one of them takes `pc + 4`, EX9E when the key is pressed
and EXA1 when it is not, and the other `pc + 2`; with `V[X] > 0xF` both fault (D9). -/
def Obligations.KeySkips : Prop :=
  ∀ (x : Reg) (s : State),
    (∀ k : Key, (s.getV x).toNat = k.val →
      (∃ t, exec (.skp x) s = .next t ∧ SameBut [.pc] s t ∧
        t.pc = if s.pressed k then s.pc + 4 else s.pc + 2) ∧
      (∃ t, exec (.sknp x) s = .next t ∧ SameBut [.pc] s t ∧
        t.pc = if s.pressed k then s.pc + 2 else s.pc + 4)) ∧
    (0xF < (s.getV x).toNat →
      exec (.skp x) s = .fault .keyIndexOutOfRange ∧ exec (.sknp x) s = .fault .keyIndexOutOfRange)

/-- FX07, FX15 and FX18: `V[X]` is `dt` as it stood before the tick; `dt` (`st`) is `V[X]`, and the
tick of the same step follows: `V[X] - 1` when it was nonzero, and for FX18 the tone exactly when
`V[X] = 1` (44_input_timers.md sections 2 and 3; the tone is D24). -/
def Obligations.TimerReadsAndWrites : Prop :=
  ∀ (x : Reg) (s : State),
    (∃ t, exec (.ldVxDt x) s = .next t ∧ t.getV x = s.dt ∧ (∀ r, r ≠ x → t.getV r = s.getV r) ∧
      t.pc = s.pc + 2 ∧ SameBut [.V, .pc] s t ∧ t.tick.getV x = s.dt ∧
      t.tick.dt.toNat = s.dt.toNat - 1) ∧
    (∃ t, exec (.ldDtVx x) s = .next t ∧ t.dt = s.getV x ∧ t.pc = s.pc + 2 ∧
      SameBut [.dt, .pc] s t ∧ t.tick.dt.toNat = (s.getV x).toNat - 1) ∧
    (∃ t, exec (.ldStVx x) s = .next t ∧ t.st = s.getV x ∧ t.pc = s.pc + 2 ∧
      SameBut [.st, .pc] s t ∧ t.tick.st.toNat = (s.getV x).toNat - 1 ∧
      (t.tick.tone = true ↔ s.getV x = 1))

/-- FX0A: with no key pressed nothing changes, `pc` included, and the step still ticks (D11); with a
key pressed `V[X]` is the index of one of the pressed keys, the only one if there is one, and `pc`
advances (which of several is a draw, D10; its counter is log 5). -/
def Obligations.KeyWaitPollsUntilPressed : Prop :=
  ∀ (x : Reg) (s : State),
    ((∀ k, s.pressed k = false) →
      exec (.ldVxK x) s = .next s ∧
      ∀ op, s.terminate = false → s.fetchWord = some op → decodeWord op = .ok (.ldVxK x) →
        step s = .next s.tick) ∧
    (∀ j, s.pressed j = true →
      ∃ t k, exec (.ldVxK x) s = .next t ∧ s.pressed k = true ∧ (t.getV x).toNat = k.val ∧
        ((∀ i, s.pressed i = true → i = j) → k = j) ∧
        (∀ r, r ≠ x → t.getV r = s.getV r) ∧ t.pc = s.pc + 2 ∧ SameBut [.V, .draws, .pc] s t)

/-! ## Reset and the host's commands -/

/-- Reset: whatever the state before, every piece of the spec's state takes its reset value, memory the
font of the machine's `FONT` parameter at 0x000..0x04F and 0 elsewhere (`I`, `dt`, `st`, `dirty` and
`terminate` are D13, `FONT` a parameter by D15). -/
def Obligations.ResetGivesEveryFieldItsValue : Prop :=
  ∀ s : State,
    (∀ q (h : q < 80), s.hostReset.memByte q = s.params.font[q]) ∧
    (∀ q, 80 ≤ q → s.hostReset.memByte q = 0) ∧
    (∀ r : Reg, s.hostReset.getV r = 0) ∧ (∀ j (_ : j < 16), s.hostReset.stack[j] = 0) ∧
    (∀ k : Key, s.hostReset.pressed k = false) ∧
    (∀ (y : Row) (x : Col), s.hostReset.disp.pixel y x = false) ∧
    s.hostReset.sp = 0 ∧ s.hostReset.pc = 0x200 ∧ s.hostReset.I = 0 ∧ s.hostReset.dt = 0 ∧
    s.hostReset.st = 0 ∧ s.hostReset.dirty = true ∧ s.hostReset.terminate = false ∧
    State.reset.hostReset = State.reset

/-- Load: byte `i` of at most 3584 lands at `0x200 + i`, every other byte and everything else is
unchanged, the halt flag included; a longer load is refused (D19). -/
def Obligations.LoadCopiesProgramBytes : Prop :=
  ∀ (b : List Byte) (s : State),
    (b.length ≤ 3584 →
      ∃ t, runCommand (.load b) s = .next t ∧
        (∀ i (h : i < b.length), t.memByte (0x200 + i) = b[i]) ∧
        (∀ q, q < 0x200 ∨ 0x200 + b.length ≤ q → t.memByte q = s.memByte q) ∧
        SameBut [.mem] s t) ∧
    (3584 < b.length → runCommand (.load b) s = .refused .loadTooLong)

/-- A run begins with reset: any other first command is refused, and the first reset gives the reset
state of the machine's parameters (D14). -/
def Obligations.ResetIsRequiredFirst : Prop :=
  ∀ (p : Config.Params) (c : Command) (cs : List Command),
    session p (.reset :: cs) = runCommands cs (State.resetWith p) ∧
    (c ≠ .reset → session p (c :: cs) = .refused .beforeFirstReset)

/-- A loaded program runs from 0x200: after reset and a load of at least two bytes, a step fetches the
word of the first two bytes, high byte first (70_reset_and_hazards.md section 2; the load is D19, the
required reset D14). That reset leaves the CORE running, `terminate = 0`, is D13 (log 7). -/
def Obligations.LoadedProgramIsFetchedFirst : Prop :=
  ∀ (p : Config.Params) (b : List Byte), b.length ≤ 3584 → ∀ h : 2 ≤ b.length,
    ∃ t w, session p [.reset, .load b] = .next t ∧ t.terminate = false ∧ t.fetchWord = some w ∧
      w.toNat = b[0].toNat * 256 + b[1].toNat
end

