-- ==== Sys2Proof/Laws/Decode.lean ====
section
/-! SUPPORT. The fields of a word as numbers, and the fields of each operand layout. -/

namespace Sys2Proof

theorem fieldF_eq (op : Word) : fieldF op = op.toNat / 0x1000 % 16 := by
  simp [fieldF, BitVec.extractLsb'_toNat, Nat.shiftRight_eq_div_pow]

theorem fieldX_val (op : Word) : (fieldX op).val = op.toNat / 0x100 % 16 := by
  show (op.extractLsb' 8 4).toNat = _
  simp [BitVec.extractLsb'_toNat, Nat.shiftRight_eq_div_pow]

theorem fieldY_val (op : Word) : (fieldY op).val = op.toNat / 0x10 % 16 := by
  show (op.extractLsb' 4 4).toNat = _
  simp [BitVec.extractLsb'_toNat, Nat.shiftRight_eq_div_pow]

theorem fieldN_eq (op : Word) : fieldN op = op.toNat % 16 := by
  simp [fieldN, BitVec.extractLsb'_toNat]

theorem fieldNN_toNat (op : Word) : (fieldNN op).toNat = op.toNat % 256 := by
  simp [fieldNN, BitVec.extractLsb'_toNat]

theorem fieldNNN_toNat (op : Word) : (fieldNNN op).toNat = op.toNat % 4096 := by
  simp only [fieldNNN, BitVec.toNat_setWidth, BitVec.extractLsb'_toNat, Nat.shiftRight_zero]
  omega

theorem fieldF_lt (op : Word) : fieldF op < 16 := by rw [fieldF_eq]; omega

theorem layoutXK_toNat {f : Nat} (x : Reg) {k : Nat} (hf : f < 16) (hk : k < 256) :
    (layoutXK f x k).toNat = f * 0x1000 + x.val * 0x100 + k := by
  simp only [layoutXK, BitVec.toNat_ofNat]; omega

theorem layoutA_toNat {f : Nat} (nnn : Word) (hf : f < 16) :
    (layoutA f nnn).toNat = f * 0x1000 + nnn.toNat % 0x1000 := by
  simp only [layoutA, BitVec.toNat_ofNat]; omega

theorem layoutXI_toNat {f : Nat} (x : Reg) (nn : Byte) (hf : f < 16) :
    (layoutXI f x nn).toNat = f * 0x1000 + x.val * 0x100 + nn.toNat := by
  simp only [layoutXI, BitVec.toNat_ofNat]; omega

theorem layoutXYN_toNat {f : Nat} (x y : Reg) (n : Nat) (hf : f < 16) :
    (layoutXYN f x y n).toNat = f * 0x1000 + x.val * 0x100 + y.val * 0x10 + n % 0x10 := by
  simp only [layoutXYN, BitVec.toNat_ofNat]; omega

/-! The fields of a laid-out word are the operands it was made of (30_encoding.md R92, R93). -/

theorem fieldF_layoutA {f : Nat} (nnn : Word) (hf : f < 16) : fieldF (layoutA f nnn) = f := by
  rw [fieldF_eq, layoutA_toNat _ hf]; omega

theorem fieldNNN_layoutA {f : Nat} {nnn : Word} (hf : f < 16) (h : nnn.toNat ≤ 0xFFF) :
    fieldNNN (layoutA f nnn) = nnn :=
  BitVec.eq_of_toNat_eq (by rw [fieldNNN_toNat, layoutA_toNat _ hf]; omega)

theorem fieldF_layoutXI {f : Nat} (x : Reg) (nn : Byte) (hf : f < 16) :
    fieldF (layoutXI f x nn) = f := by rw [fieldF_eq, layoutXI_toNat _ _ hf]; omega

theorem fieldX_layoutXI {f : Nat} (x : Reg) (nn : Byte) (hf : f < 16) :
    fieldX (layoutXI f x nn) = x :=
  Fin.ext (by rw [fieldX_val, layoutXI_toNat _ _ hf]; omega)

theorem fieldNN_layoutXI {f : Nat} (x : Reg) (nn : Byte) (hf : f < 16) :
    fieldNN (layoutXI f x nn) = nn :=
  BitVec.eq_of_toNat_eq (by rw [fieldNN_toNat, layoutXI_toNat _ _ hf]; omega)

theorem fieldF_layoutXYN {f : Nat} (x y : Reg) (n : Nat) (hf : f < 16) :
    fieldF (layoutXYN f x y n) = f := by rw [fieldF_eq, layoutXYN_toNat _ _ _ hf]; omega

theorem fieldX_layoutXYN {f : Nat} (x y : Reg) (n : Nat) (hf : f < 16) :
    fieldX (layoutXYN f x y n) = x :=
  Fin.ext (by rw [fieldX_val, layoutXYN_toNat _ _ _ hf]; omega)

theorem fieldY_layoutXYN {f : Nat} (x y : Reg) (n : Nat) (hf : f < 16) :
    fieldY (layoutXYN f x y n) = y :=
  Fin.ext (by rw [fieldY_val, layoutXYN_toNat _ _ _ hf]; omega)

theorem fieldN_layoutXYN {f n : Nat} (x y : Reg) (hf : f < 16) (hn : n ≤ 15) :
    fieldN (layoutXYN f x y n) = n := by rw [fieldN_eq, layoutXYN_toNat _ _ _ hf]; omega

theorem fieldF_layoutXK {f k : Nat} (x : Reg) (hf : f < 16) (hk : k < 256) :
    fieldF (layoutXK f x k) = f := by rw [fieldF_eq, layoutXK_toNat _ hf hk]; omega

theorem fieldX_layoutXK {f k : Nat} (x : Reg) (hf : f < 16) (hk : k < 256) :
    fieldX (layoutXK f x k) = x :=
  Fin.ext (by rw [fieldX_val, layoutXK_toNat _ hf hk]; omega)

theorem fieldNN_layoutXK {f k : Nat} (x : Reg) (hf : f < 16) (hk : k < 256) :
    (fieldNN (layoutXK f x k)).toNat = k := by rw [fieldNN_toNat, layoutXK_toNat _ hf hk]; omega

/-! The decoder masks of spec/opcode_table.json as arithmetic. -/

theorem mask_family (w : Word) : (w &&& 0xF000).toNat = w.toNat / 0x1000 * 0x1000 := by
  have h : w &&& (0xF000 : Word) = (w >>> 12) <<< 12 := by
    apply BitVec.eq_of_getLsbD_eq; intro i hi
    interval_cases i <;> simp
  rw [h]
  simp only [BitVec.toNat_shiftLeft, BitVec.toNat_ushiftRight, Nat.shiftRight_eq_div_pow, Nat.shiftLeft_eq]
  omega

theorem mask_and_low (w m : Word) (k : Nat) (hm : m.toNat = 2 ^ k - 1) :
    (w &&& m).toNat = w.toNat % 2 ^ k := by
  rw [BitVec.toNat_and, hm, Nat.and_two_pow_sub_one_eq_mod]

theorem mask_split (w m : Word) (h : (0xF000 : Word) &&& m = 0) :
    w &&& (0xF000 ||| m) = (w &&& 0xF000) + (w &&& m) := by
  rw [BitVec.add_eq_or_of_and_eq_zero, ← BitVec.and_or_distrib_left]
  rw [show w &&& 0xF000 &&& (w &&& m) = w &&& ((0xF000 : Word) &&& m) by
    ext i; simp; grind]
  rw [h]; simp

theorem mask_nibble (w : Word) :
    (w &&& 0xF00F).toNat = w.toNat / 0x1000 * 0x1000 + w.toNat % 0x10 := by
  have h := mask_split w 0xF (by decide)
  rw [show ((0xF000 : Word) ||| 0xF) = 0xF00F by decide] at h
  have h2 := mask_and_low w 0xF 4 (by decide)
  rw [h, BitVec.toNat_add, mask_family, h2]; omega

theorem mask_byte (w : Word) :
    (w &&& 0xF0FF).toNat = w.toNat / 0x1000 * 0x1000 + w.toNat % 0x100 := by
  have h := mask_split w 0xFF (by decide)
  rw [show ((0xF000 : Word) ||| 0xFF) = 0xF0FF by decide] at h
  have h2 := mask_and_low w 0xFF 8 (by decide)
  rw [h, BitVec.toNat_add, mask_family, h2]; omega

theorem and_family {w k : Word} (h : w.toNat / 0x1000 * 0x1000 = k.toNat) : w &&& 0xF000 = k :=
  BitVec.eq_of_toNat_eq ((mask_family w).trans h)

theorem and_nibble {w k : Word} (h : w.toNat / 0x1000 * 0x1000 + w.toNat % 0x10 = k.toNat) :
    w &&& 0xF00F = k := BitVec.eq_of_toNat_eq ((mask_nibble w).trans h)

theorem and_byte {w k : Word} (h : w.toNat / 0x1000 * 0x1000 + w.toNat % 0x100 = k.toNat) :
    w &&& 0xF0FF = k := BitVec.eq_of_toNat_eq ((mask_byte w).trans h)

end Sys2Proof
end

