-- ==== Sys2Proof/Laws/Display.lean ====
section
/-! SUPPORT. What drawing does to the display, said once: which pixels a sprite covers, that each is
toggled once, and when a collision is recorded (43_display.md R210, R213, R214). -/

namespace Sys2Proof.Machine

theorem Display.pixel_setPixel (d : Display) (y r : Row) (x c : Col) (b : Bool) :
    (d.setPixel y x b).pixel r c = if r = y ∧ c = x then b else d.pixel r c := by
  simp only [Display.pixel, Display.setPixel, Fin.getElem_fin, Vector.getElem_set]
  by_cases h1 : r = y
  · subst r
    simp only [if_true, true_and, Vector.getElem_set, Fin.ext_iff, eq_comm]
  · have h2 : ¬ y.val = r.val := fun h => h1 (Fin.ext h.symm)
    simp [h1, h2]

@[simp] theorem Display.pixel_blank (r : Row) (c : Col) : Display.blank.pixel r c = false := by
  simp [Display.pixel, Display.blank]

/-- Two displays with the same pixels are the same display. -/
theorem Display.ext_pixel {d e : Display} (h : ∀ r c, d.pixel r c = e.pixel r c) : d = e := by
  apply Vector.ext; intro r hr
  apply Vector.ext; intro c hc
  exact h ⟨r, hr⟩ ⟨c, hc⟩

theorem togglePixel_pixel (acc : Display × Bool) (y r : Row) (x c : Col) :
    (togglePixel acc y x).1.pixel r c = (acc.1.pixel r c ^^ decide (r = y ∧ c = x)) := by
  simp only [togglePixel, Display.pixel_setPixel]
  by_cases h : r = y ∧ c = x
  · obtain ⟨rfl, rfl⟩ := h; simp
  · simp [h]

/-- The column of a sprite whose pixel column is `c`, if the sprite starts at column `x`. -/
def spriteColumn (x : Nat) (c : Col) : Nat := (c.val + 64 - x % 64) % 64

theorem colOf_eq_iff (x k : Nat) (c : Col) (hk : k < 64) : c = colOf (x + k) ↔ k = spriteColumn x c := by
  have := c.isLt
  simp only [colOf, spriteColumn, Fin.ext_iff]
  omega

/-- The row of a sprite whose pixel row is `r`, if the sprite starts at row `y`. -/
def spriteRow (y : Nat) (r : Row) : Nat := (r.val + 32 - y % 32) % 32

theorem rowOf_eq_iff (y k : Nat) (r : Row) (hk : k < 32) : r = rowOf (y + k) ↔ k = spriteRow y r := by
  have := r.isLt
  simp only [rowOf, spriteRow, Fin.ext_iff]
  omega

/-- The first `n` columns of a sprite byte drawn. -/
def drawCols (x y : Nat) (b : Byte) (n : Nat) (acc : Display × Bool) : Display × Bool :=
  (List.range n).foldl
    (fun acc c => if spriteBit b c then togglePixel acc (rowOf y) (colOf (x + c)) else acc) acc

theorem drawCols_succ (x y : Nat) (b : Byte) (n : Nat) (acc : Display × Bool) :
    drawCols x y b (n + 1) acc =
      if spriteBit b n then togglePixel (drawCols x y b n acc) (rowOf y) (colOf (x + n))
      else drawCols x y b n acc := by
  simp [drawCols, List.range_succ, List.foldl_append]

theorem drawCols_pixel (x y : Nat) (b : Byte) (acc : Display × Bool) (r : Row) (c : Col) :
    ∀ n, n ≤ 8 → (drawCols x y b n acc).1.pixel r c =
      (acc.1.pixel r c ^^ (decide (r = rowOf y) && decide (spriteColumn x c < n) &&
        spriteBit b (spriteColumn x c))) := by
  intro n
  induction n with
  | zero => intro _; simp [drawCols]
  | succ n ih =>
    intro hn
    rw [drawCols_succ]
    have hc := colOf_eq_iff x n c (by omega)
    by_cases hcol : n = spriteColumn x c
    · have h3 : (c = colOf (x + n)) = True := eq_true (hc.2 hcol)
      split
      · next hb =>
        rw [togglePixel_pixel, ih (by omega), ← hcol]
        simp only [h3]
        simp [hb]
      · next hb =>
        rw [ih (by omega), ← hcol]
        simp [hb]
    · have h3 : ¬ c = colOf (x + n) := fun h => hcol (hc.1 h)
      have h4 : (spriteColumn x c < n + 1) ↔ spriteColumn x c < n := by omega
      split
      · rw [togglePixel_pixel, ih (by omega)]; simp [h3, h4]
      · rw [ih (by omega)]; simp [h4]

/-- The collision bit of the first `n` columns: some set sprite bit fell on a pixel that was 1
BEFORE the row was drawn, since no column is drawn twice. -/
theorem drawCols_hit (x y : Nat) (b : Byte) (acc : Display × Bool) :
    ∀ n, n ≤ 8 → ((drawCols x y b n acc).2 = true ↔ acc.2 = true ∨
      ∃ k, k < n ∧ spriteBit b k = true ∧ acc.1.pixel (rowOf y) (colOf (x + k)) = true) := by
  intro n
  induction n with
  | zero => intro _; simp [drawCols]
  | succ n ih =>
    intro hn
    rw [drawCols_succ]
    have hcol : ¬ spriteColumn x (colOf (x + n)) < n := by
      rw [← (colOf_eq_iff x n (colOf (x + n)) (by omega)).1 rfl]; omega
    have hpix : (drawCols x y b n acc).1.pixel (rowOf y) (colOf (x + n)) =
        acc.1.pixel (rowOf y) (colOf (x + n)) := by
      rw [drawCols_pixel _ _ _ _ _ _ n (by omega)]; simp [hcol]
    split
    · next hb =>
      simp only [togglePixel, Bool.or_eq_true, ih (by omega), hpix]
      constructor
      · rintro ((h | ⟨k, hk, h⟩) | h)
        · exact .inl h
        · exact .inr ⟨k, by omega, h⟩
        · exact .inr ⟨n, by omega, hb, h⟩
      · rintro (h | ⟨k, hk, h⟩)
        · exact .inl (.inl h)
        · by_cases e : k = n
          · subst e; exact .inr h.2
          · exact .inl (.inr ⟨k, by omega, h⟩)
    · next hb =>
      rw [ih (by omega)]
      constructor
      · rintro (h | ⟨k, hk, h⟩)
        · exact .inl h
        · exact .inr ⟨k, by omega, h⟩
      · rintro (h | ⟨k, hk, h⟩)
        · exact .inl h
        · by_cases e : k = n
          · subst e; exact absurd h.1 hb
          · exact .inr ⟨k, by omega, h⟩

/-- One row drawn: the pixels under its set bits are toggled and no other. -/
theorem drawRow_pixel (x y : Nat) (b : Byte) (acc : Display × Bool) (r : Row) (c : Col) :
    (drawRow x y b acc).1.pixel r c =
      (acc.1.pixel r c ^^ (decide (r = rowOf y) && decide (spriteColumn x c < 8) &&
        spriteBit b (spriteColumn x c))) := drawCols_pixel x y b acc r c 8 (by omega)

theorem drawRow_hit (x y : Nat) (b : Byte) (acc : Display × Bool) :
    ((drawRow x y b acc).2 = true ↔ acc.2 = true ∨
      ∃ k, k < 8 ∧ spriteBit b k = true ∧ acc.1.pixel (rowOf y) (colOf (x + k)) = true) :=
  drawCols_hit x y b acc 8 (by omega)

/-- Is the pixel under a set bit of the sprite? -/
def covered (x y : Nat) (bs : List Byte) (r : Row) (c : Col) : Bool :=
  decide (spriteRow y r < bs.length) && decide (spriteColumn x c < 8) &&
    spriteBit (bs.getD (spriteRow y r) 0) (spriteColumn x c)

/-- A sprite of at most 32 rows drawn: the pixels under its set bits are toggled and no other. -/
theorem drawRows_pixel (x : Nat) (r : Row) (c : Col) (bs : List Byte) :
    ∀ (y : Nat) (acc : Display × Bool), bs.length ≤ 32 →
      (drawRows x y bs acc).1.pixel r c = (acc.1.pixel r c ^^ covered x y bs r c) := by
  induction bs with
  | nil => intro y acc _; simp [drawRows, covered]
  | cons b bs ih =>
    intro y acc hlen
    simp only [List.length_cons] at hlen
    rw [drawRows, ih _ _ (by omega), drawRow_pixel]
    have h0 := rowOf_eq_iff y 0 r (by omega)
    simp only [Nat.add_zero] at h0
    have hr := r.isLt
    by_cases hrow : r = rowOf y
    · have hz : spriteRow y r = 0 := (h0.1 hrow).symm
      have hz' : spriteRow (y + 1) r = 31 := by
        simp only [spriteRow] at hz ⊢; omega
      have : ¬ spriteRow (y + 1) r < bs.length := by omega
      simp only [eq_true hrow, covered, hz, eq_false this]
      simp
    · have hz : spriteRow y r ≠ 0 := fun h => hrow (h0.2 h.symm)
      have hs : spriteRow y r = spriteRow (y + 1) r + 1 := by
        simp only [spriteRow] at hz ⊢; omega
      simp [covered, hrow, hs]

/-- The collision bit of a sprite of at most 32 rows, over the display BEFORE the draw: no row is
drawn twice, so the test always sees the pixel from before (43_display.md R214). -/
theorem drawRows_hit (x : Nat) (bs : List Byte) :
    ∀ (y : Nat) (acc : Display × Bool), bs.length ≤ 32 →
      ((drawRows x y bs acc).2 = true ↔ acc.2 = true ∨
        ∃ j, ∃ h : j < bs.length, ∃ k, k < 8 ∧ spriteBit bs[j] k = true ∧
          acc.1.pixel (rowOf (y + j)) (colOf (x + k)) = true) := by
  induction bs with
  | nil => intro y acc _; simp [drawRows]
  | cons b bs ih =>
    intro y acc hlen
    simp only [List.length_cons] at hlen
    rw [drawRows, ih _ _ (by omega), drawRow_hit]
    have hpix : ∀ j, j < bs.length → ∀ c, (drawRow x y b acc).1.pixel (rowOf (y + 1 + j)) c =
        acc.1.pixel (rowOf (y + 1 + j)) c := by
      intro j hj c
      have : ¬ rowOf (y + 1 + j) = rowOf y := by
        simp only [rowOf, Fin.ext_iff]; omega
      rw [drawRow_pixel]; simp [this]
    constructor
    · rintro ((h | ⟨k, hk, hb, h⟩) | ⟨j, hj, k, hk, hb, h⟩)
      · exact .inl h
      · exact .inr ⟨0, by simp, k, hk, by simpa using hb, by simpa using h⟩
      · rw [hpix j hj] at h
        exact .inr ⟨j + 1, by simpa using hj, k, hk, by simpa using hb,
          by rwa [show y + (j + 1) = y + 1 + j by omega]⟩
    · rintro (h | ⟨j, hj, k, hk, hb, h⟩)
      · exact .inl (.inl h)
      · cases j with
        | zero => exact .inl (.inr ⟨k, hk, by simpa using hb, by simpa using h⟩)
        | succ j =>
          simp only [List.length_cons] at hj
          refine .inr ⟨j, by omega, k, hk, by simpa using hb, ?_⟩
          rw [hpix j (by omega)]
          rwa [show y + 1 + j = y + (j + 1) by omega]

end Sys2Proof.Machine
end

