-- ==== Sys2Proof/Laws/Memory.lean ====
section
/-! SUPPORT. Memory: read after write, the canonical form, and address resolution. -/

namespace Sys2Proof.Machine

/-! The list. -/

theorem Memory.lookup_erase (a q : Nat) (m : Memory) :
    Memory.lookup q (Memory.erase a m) = if q = a then none else Memory.lookup q m := by
  induction m with
  | nil => simp [Memory.erase, Memory.lookup]
  | cons c rest ih =>
    obtain ⟨b, v⟩ := c
    simp only [Memory.erase, Memory.lookup]
    split
    · subst b; rw [ih]; split <;> simp_all
    · simp only [Memory.lookup, ih]; split <;> simp_all; omega

theorem Memory.lookup_insert (a q : Nat) (v : Byte) (m : Memory) :
    Memory.lookup q (Memory.insert a v m) = if q = a then some v else Memory.lookup q m := by
  induction m with
  | nil => simp [Memory.insert, Memory.lookup]
  | cons c rest ih =>
    obtain ⟨b, w⟩ := c
    simp only [Memory.insert]
    split
    · simp [Memory.lookup]
    · split
      · subst b; simp only [Memory.lookup]; split <;> rfl
      · simp only [Memory.lookup, ih]; split <;> simp_all; omega

theorem Memory.mem_erase {a : Nat} {m : Memory} {c : Host.Cell} :
    c ∈ Memory.erase a m ↔ c ∈ m ∧ c.1 ≠ a := by
  induction m with
  | nil => simp [Memory.erase]
  | cons d rest ih =>
    obtain ⟨b, w⟩ := d
    simp only [Memory.erase]
    split
    · subst b; simp only [ih, List.mem_cons]
      constructor
      · exact fun h => ⟨.inr h.1, h.2⟩
      · rintro ⟨rfl | h, h2⟩
        · exact absurd rfl h2
        · exact ⟨h, h2⟩
    · simp only [List.mem_cons, ih]
      constructor
      · rintro (rfl | h)
        · exact ⟨.inl rfl, by simp; omega⟩
        · exact ⟨.inr h.1, h.2⟩
      · rintro ⟨rfl | h, h2⟩
        · exact .inl rfl
        · exact .inr ⟨h, h2⟩

theorem Memory.mem_insert {a : Nat} {v : Byte} {m : Memory} {c : Host.Cell}
    (h : c ∈ Memory.insert a v m) : c = (a, v) ∨ c ∈ m := by
  induction m with
  | nil => simpa [Memory.insert] using h
  | cons d rest ih =>
    obtain ⟨b, w⟩ := d
    simp only [Memory.insert] at h
    split at h
    · simpa using h
    · split at h
      · rcases List.mem_cons.1 h with h | h
        · exact .inl h
        · exact .inr (List.mem_cons_of_mem _ h)
      · rcases List.mem_cons.1 h with h | h
        · exact .inr (h ▸ List.mem_cons_self)
        · exact (ih h).imp_right (List.mem_cons_of_mem _)

theorem Memory.erase_sorted {a : Nat} {m : Memory} (h : m.Pairwise (fun c d => c.1 < d.1)) :
    (Memory.erase a m).Pairwise (fun c d => c.1 < d.1) := by
  induction m with
  | nil => simp [Memory.erase]
  | cons d rest ih =>
    obtain ⟨b, w⟩ := d
    rw [List.pairwise_cons] at h
    simp only [Memory.erase]
    split
    · exact ih h.2
    · exact List.pairwise_cons.2 ⟨fun c hc => h.1 c (Memory.mem_erase.1 hc).1, ih h.2⟩

theorem Memory.insert_sorted {a : Nat} {v : Byte} {m : Memory}
    (h : m.Pairwise (fun c d => c.1 < d.1)) :
    (Memory.insert a v m).Pairwise (fun c d => c.1 < d.1) := by
  induction m with
  | nil => simp [Memory.insert]
  | cons d rest ih =>
    obtain ⟨b, w⟩ := d
    have h' := List.pairwise_cons.1 h
    simp only [Memory.insert]
    split
    · refine List.pairwise_cons.2 ⟨fun c hc => ?_, h⟩
      rcases List.mem_cons.1 hc with rfl | hc
      · assumption
      · have := h'.1 c hc; simp at this; simp; omega
    · split
      · subst b; exact List.pairwise_cons.2 ⟨h'.1, h'.2⟩
      · refine List.pairwise_cons.2 ⟨fun c hc => ?_, ih h'.2⟩
        rcases Memory.mem_insert hc with rfl | hc
        · simp; omega
        · exact h'.1 c hc

/-! One byte (20_memory.md R63, R67, R71). -/

/-- A write changes the byte written and no other. -/
theorem Memory.read_write (p : Config.Params) (m : Memory) (a q : Nat) (v : Byte) :
    Memory.read p (Memory.write p m a v) q = if q = a then v else Memory.read p m q := by
  simp only [Memory.read, Memory.write]
  split
  · rw [Memory.lookup_erase]; split <;> simp_all
  · rw [Memory.lookup_insert]; split <;> simp_all

@[simp] theorem Memory.read_nil (p : Config.Params) (q : Nat) :
    Memory.read p [] q = Memory.unlisted p q := rfl

theorem Memory.wf_nil (p : Config.Params) : Memory.wf p [] :=
  ⟨.nil, fun _ hc => nomatch hc⟩

/-- Every write inside the address space keeps the canonical form. -/
theorem Memory.wf_write {p : Config.Params} {m : Memory} (h : Memory.wf p m) {a : Nat}
    (ha : a < 4096) (v : Byte) : Memory.wf p (Memory.write p m a v) := by
  simp only [Memory.write]
  split
  · exact ⟨Memory.erase_sorted h.1, fun c hc => h.2 c (Memory.mem_erase.1 hc).1⟩
  · next hv =>
    refine ⟨Memory.insert_sorted h.1, fun c hc => ?_⟩
    rcases Memory.mem_insert hc with rfl | hc
    · exact ⟨ha, hv⟩
    · exact h.2 c hc

theorem Memory.wf_writeAll {p : Config.Params} (bs : List Byte) :
    ∀ {m : Memory} {a : Nat}, Memory.wf p m → a + bs.length ≤ 4096 →
      Memory.wf p (Memory.writeAll p m a bs) := by
  induction bs with
  | nil => intro m a h _; exact h
  | cons b bs ih =>
    intro m a h ha
    simp only [List.length_cons] at ha
    exact ih (Memory.wf_write h (by omega) b) (by omega)

/-- A block copy writes byte `k` at `a + k` and nothing else (70_reset_and_hazards.md R294). -/
theorem Memory.read_writeAll (p : Config.Params) (bs : List Byte) :
    ∀ (m : Memory) (a q : Nat), Memory.read p (Memory.writeAll p m a bs) q =
      if h : a ≤ q ∧ q < a + bs.length then bs[q - a]'(by omega) else Memory.read p m q := by
  induction bs with
  | nil => intro m a q; rw [dif_neg (by simp)]; rfl
  | cons b bs ih =>
    intro m a q
    simp only [Memory.writeAll, ih, Memory.read_write, List.length_cons]
    by_cases h1 : q = a
    · subst q; simp
    · by_cases h2 : a + 1 ≤ q ∧ q < a + 1 + bs.length
      · rw [dif_pos h2, dif_pos (by omega)]
        obtain ⟨k, rfl⟩ : ∃ k, q = a + 1 + k := ⟨q - (a + 1), by omega⟩
        simp only [show a + 1 + k - a = k + 1 by omega, show a + 1 + k - (a + 1) = k by omega,
          List.getElem_cons_succ]
      · rw [dif_neg h2, dif_neg (by omega), if_neg h1]

/-! Address resolution (20_memory.md R62). -/

theorem phys_inside {a : Nat} (policy : Config.AddrPolicy) (h : a ≤ 0xFFF) :
    phys policy a = some a := by simp [phys, h]

theorem phys_fault {a : Nat} (h : ¬ a ≤ 0xFFF) : phys .fault a = none := by simp [phys, h]

theorem phys_wrap12 (a : Nat) : phys .wrap12 a = some (a % 4096) := by
  simp only [phys]; split <;> simp; omega

theorem phys_lt {policy : Config.AddrPolicy} {a q : Nat} (h : phys policy a = some q) : q < 4096 := by
  cases policy with
  | fault => simp only [phys] at h; split at h <;> simp_all; omega
  | wrap12 => rw [phys_wrap12] at h; simp at h; omega

/-- Both policies name the address modulo 4096 where they name one. -/
theorem phys_mod {policy : Config.AddrPolicy} {a q : Nat} (h : phys policy a = some q) :
    q = a % 4096 := by
  cases policy with
  | fault => simp only [phys] at h; split at h <;> simp_all; omega
  | wrap12 => rw [phys_wrap12] at h; simpa using h.symm

theorem phys_eq_none {policy : Config.AddrPolicy} {a : Nat} :
    phys policy a = none ↔ policy = .fault ∧ 0xFFF < a := by
  cases policy with
  | fault => simp only [phys]; split <;> simp <;> omega
  | wrap12 => simp [phys_wrap12]

end Sys2Proof.Machine
end

