-- ==== Sys2Proof/Laws/State.lean ====
section
/-! SUPPORT. One lemma per field of State per named update, all true by unfolding, and the reads of
a register and of a byte of memory through each update. -/

namespace Sys2Proof.Machine.State

variable (s : State)

/-! `setV` -/

@[simp] theorem setV_mem (x : Reg) (b : Byte) : (s.setV x b).mem = s.mem := rfl
@[simp] theorem setV_V (x : Reg) (b : Byte) : (s.setV x b).V = s.V.set x b := rfl
@[simp] theorem setV_I (x : Reg) (b : Byte) : (s.setV x b).I = s.I := rfl
@[simp] theorem setV_pc (x : Reg) (b : Byte) : (s.setV x b).pc = s.pc := rfl
@[simp] theorem setV_stack (x : Reg) (b : Byte) : (s.setV x b).stack = s.stack := rfl
@[simp] theorem setV_sp (x : Reg) (b : Byte) : (s.setV x b).sp = s.sp := rfl
@[simp] theorem setV_dt (x : Reg) (b : Byte) : (s.setV x b).dt = s.dt := rfl
@[simp] theorem setV_st (x : Reg) (b : Byte) : (s.setV x b).st = s.st := rfl
@[simp] theorem setV_disp (x : Reg) (b : Byte) : (s.setV x b).disp = s.disp := rfl
@[simp] theorem setV_dirty (x : Reg) (b : Byte) : (s.setV x b).dirty = s.dirty := rfl
@[simp] theorem setV_keys (x : Reg) (b : Byte) : (s.setV x b).keys = s.keys := rfl
@[simp] theorem setV_terminate (x : Reg) (b : Byte) : (s.setV x b).terminate = s.terminate := rfl
@[simp] theorem setV_tone (x : Reg) (b : Byte) : (s.setV x b).tone = s.tone := rfl
@[simp] theorem setV_draws (x : Reg) (b : Byte) : (s.setV x b).draws = s.draws := rfl
@[simp] theorem setV_params (x : Reg) (b : Byte) : (s.setV x b).params = s.params := rfl
@[simp] theorem setV_memByte (x : Reg) (b : Byte) (q : Nat) : (s.setV x b).memByte q = s.memByte q := rfl

/-! `setFlagThenV` -/

@[simp] theorem setFlagThenV_mem (f : Byte) (x : Reg) (b : Byte) : (s.setFlagThenV f x b).mem = s.mem := rfl
@[simp] theorem setFlagThenV_V (f : Byte) (x : Reg) (b : Byte) : (s.setFlagThenV f x b).V = (s.V.set (0xF : Reg) f).set x b := rfl
@[simp] theorem setFlagThenV_I (f : Byte) (x : Reg) (b : Byte) : (s.setFlagThenV f x b).I = s.I := rfl
@[simp] theorem setFlagThenV_pc (f : Byte) (x : Reg) (b : Byte) : (s.setFlagThenV f x b).pc = s.pc := rfl
@[simp] theorem setFlagThenV_stack (f : Byte) (x : Reg) (b : Byte) : (s.setFlagThenV f x b).stack = s.stack := rfl
@[simp] theorem setFlagThenV_sp (f : Byte) (x : Reg) (b : Byte) : (s.setFlagThenV f x b).sp = s.sp := rfl
@[simp] theorem setFlagThenV_dt (f : Byte) (x : Reg) (b : Byte) : (s.setFlagThenV f x b).dt = s.dt := rfl
@[simp] theorem setFlagThenV_st (f : Byte) (x : Reg) (b : Byte) : (s.setFlagThenV f x b).st = s.st := rfl
@[simp] theorem setFlagThenV_disp (f : Byte) (x : Reg) (b : Byte) : (s.setFlagThenV f x b).disp = s.disp := rfl
@[simp] theorem setFlagThenV_dirty (f : Byte) (x : Reg) (b : Byte) : (s.setFlagThenV f x b).dirty = s.dirty := rfl
@[simp] theorem setFlagThenV_keys (f : Byte) (x : Reg) (b : Byte) : (s.setFlagThenV f x b).keys = s.keys := rfl
@[simp] theorem setFlagThenV_terminate (f : Byte) (x : Reg) (b : Byte) : (s.setFlagThenV f x b).terminate = s.terminate := rfl
@[simp] theorem setFlagThenV_tone (f : Byte) (x : Reg) (b : Byte) : (s.setFlagThenV f x b).tone = s.tone := rfl
@[simp] theorem setFlagThenV_draws (f : Byte) (x : Reg) (b : Byte) : (s.setFlagThenV f x b).draws = s.draws := rfl
@[simp] theorem setFlagThenV_params (f : Byte) (x : Reg) (b : Byte) : (s.setFlagThenV f x b).params = s.params := rfl
@[simp] theorem setFlagThenV_memByte (f : Byte) (x : Reg) (b : Byte) (q : Nat) : (s.setFlagThenV f x b).memByte q = s.memByte q := rfl

/-! `setRegs` -/

@[simp] theorem setRegs_mem (bs : List Byte) : (s.setRegs bs).mem = s.mem := rfl
@[simp] theorem setRegs_V (bs : List Byte) : (s.setRegs bs).V = writeRegs 0 bs s.V := rfl
@[simp] theorem setRegs_I (bs : List Byte) : (s.setRegs bs).I = s.I := rfl
@[simp] theorem setRegs_pc (bs : List Byte) : (s.setRegs bs).pc = s.pc := rfl
@[simp] theorem setRegs_stack (bs : List Byte) : (s.setRegs bs).stack = s.stack := rfl
@[simp] theorem setRegs_sp (bs : List Byte) : (s.setRegs bs).sp = s.sp := rfl
@[simp] theorem setRegs_dt (bs : List Byte) : (s.setRegs bs).dt = s.dt := rfl
@[simp] theorem setRegs_st (bs : List Byte) : (s.setRegs bs).st = s.st := rfl
@[simp] theorem setRegs_disp (bs : List Byte) : (s.setRegs bs).disp = s.disp := rfl
@[simp] theorem setRegs_dirty (bs : List Byte) : (s.setRegs bs).dirty = s.dirty := rfl
@[simp] theorem setRegs_keys (bs : List Byte) : (s.setRegs bs).keys = s.keys := rfl
@[simp] theorem setRegs_terminate (bs : List Byte) : (s.setRegs bs).terminate = s.terminate := rfl
@[simp] theorem setRegs_tone (bs : List Byte) : (s.setRegs bs).tone = s.tone := rfl
@[simp] theorem setRegs_draws (bs : List Byte) : (s.setRegs bs).draws = s.draws := rfl
@[simp] theorem setRegs_params (bs : List Byte) : (s.setRegs bs).params = s.params := rfl
@[simp] theorem setRegs_memByte (bs : List Byte) (q : Nat) : (s.setRegs bs).memByte q = s.memByte q := rfl

/-! `setI` -/

@[simp] theorem setI_mem (a : Word) : (s.setI a).mem = s.mem := rfl
@[simp] theorem setI_V (a : Word) : (s.setI a).V = s.V := rfl
@[simp] theorem setI_I (a : Word) : (s.setI a).I = a := rfl
@[simp] theorem setI_pc (a : Word) : (s.setI a).pc = s.pc := rfl
@[simp] theorem setI_stack (a : Word) : (s.setI a).stack = s.stack := rfl
@[simp] theorem setI_sp (a : Word) : (s.setI a).sp = s.sp := rfl
@[simp] theorem setI_dt (a : Word) : (s.setI a).dt = s.dt := rfl
@[simp] theorem setI_st (a : Word) : (s.setI a).st = s.st := rfl
@[simp] theorem setI_disp (a : Word) : (s.setI a).disp = s.disp := rfl
@[simp] theorem setI_dirty (a : Word) : (s.setI a).dirty = s.dirty := rfl
@[simp] theorem setI_keys (a : Word) : (s.setI a).keys = s.keys := rfl
@[simp] theorem setI_terminate (a : Word) : (s.setI a).terminate = s.terminate := rfl
@[simp] theorem setI_tone (a : Word) : (s.setI a).tone = s.tone := rfl
@[simp] theorem setI_draws (a : Word) : (s.setI a).draws = s.draws := rfl
@[simp] theorem setI_params (a : Word) : (s.setI a).params = s.params := rfl
@[simp] theorem setI_getV (a : Word) (r : Reg) : (s.setI a).getV r = s.getV r := rfl
@[simp] theorem setI_memByte (a : Word) (q : Nat) : (s.setI a).memByte q = s.memByte q := rfl

/-! `setPc` -/

@[simp] theorem setPc_mem (a : Word) : (s.setPc a).mem = s.mem := rfl
@[simp] theorem setPc_V (a : Word) : (s.setPc a).V = s.V := rfl
@[simp] theorem setPc_I (a : Word) : (s.setPc a).I = s.I := rfl
@[simp] theorem setPc_pc (a : Word) : (s.setPc a).pc = a := rfl
@[simp] theorem setPc_stack (a : Word) : (s.setPc a).stack = s.stack := rfl
@[simp] theorem setPc_sp (a : Word) : (s.setPc a).sp = s.sp := rfl
@[simp] theorem setPc_dt (a : Word) : (s.setPc a).dt = s.dt := rfl
@[simp] theorem setPc_st (a : Word) : (s.setPc a).st = s.st := rfl
@[simp] theorem setPc_disp (a : Word) : (s.setPc a).disp = s.disp := rfl
@[simp] theorem setPc_dirty (a : Word) : (s.setPc a).dirty = s.dirty := rfl
@[simp] theorem setPc_keys (a : Word) : (s.setPc a).keys = s.keys := rfl
@[simp] theorem setPc_terminate (a : Word) : (s.setPc a).terminate = s.terminate := rfl
@[simp] theorem setPc_tone (a : Word) : (s.setPc a).tone = s.tone := rfl
@[simp] theorem setPc_draws (a : Word) : (s.setPc a).draws = s.draws := rfl
@[simp] theorem setPc_params (a : Word) : (s.setPc a).params = s.params := rfl
@[simp] theorem setPc_getV (a : Word) (r : Reg) : (s.setPc a).getV r = s.getV r := rfl
@[simp] theorem setPc_memByte (a : Word) (q : Nat) : (s.setPc a).memByte q = s.memByte q := rfl

/-! `advance` -/

@[simp] theorem advance_mem : s.advance.mem = s.mem := rfl
@[simp] theorem advance_V : s.advance.V = s.V := rfl
@[simp] theorem advance_I : s.advance.I = s.I := rfl
@[simp] theorem advance_pc : s.advance.pc = s.pc + 2 := rfl
@[simp] theorem advance_stack : s.advance.stack = s.stack := rfl
@[simp] theorem advance_sp : s.advance.sp = s.sp := rfl
@[simp] theorem advance_dt : s.advance.dt = s.dt := rfl
@[simp] theorem advance_st : s.advance.st = s.st := rfl
@[simp] theorem advance_disp : s.advance.disp = s.disp := rfl
@[simp] theorem advance_dirty : s.advance.dirty = s.dirty := rfl
@[simp] theorem advance_keys : s.advance.keys = s.keys := rfl
@[simp] theorem advance_terminate : s.advance.terminate = s.terminate := rfl
@[simp] theorem advance_tone : s.advance.tone = s.tone := rfl
@[simp] theorem advance_draws : s.advance.draws = s.draws := rfl
@[simp] theorem advance_params : s.advance.params = s.params := rfl
@[simp] theorem advance_getV (r : Reg) : s.advance.getV r = s.getV r := rfl
@[simp] theorem advance_memByte (q : Nat) : s.advance.memByte q = s.memByte q := rfl

/-! `skipIf` -/

@[simp] theorem skipIf_mem (c : Bool) : (s.skipIf c).mem = s.mem := rfl
@[simp] theorem skipIf_V (c : Bool) : (s.skipIf c).V = s.V := rfl
@[simp] theorem skipIf_I (c : Bool) : (s.skipIf c).I = s.I := rfl
@[simp] theorem skipIf_pc (c : Bool) : (s.skipIf c).pc = if c then s.pc + 4 else s.pc + 2 := rfl
@[simp] theorem skipIf_stack (c : Bool) : (s.skipIf c).stack = s.stack := rfl
@[simp] theorem skipIf_sp (c : Bool) : (s.skipIf c).sp = s.sp := rfl
@[simp] theorem skipIf_dt (c : Bool) : (s.skipIf c).dt = s.dt := rfl
@[simp] theorem skipIf_st (c : Bool) : (s.skipIf c).st = s.st := rfl
@[simp] theorem skipIf_disp (c : Bool) : (s.skipIf c).disp = s.disp := rfl
@[simp] theorem skipIf_dirty (c : Bool) : (s.skipIf c).dirty = s.dirty := rfl
@[simp] theorem skipIf_keys (c : Bool) : (s.skipIf c).keys = s.keys := rfl
@[simp] theorem skipIf_terminate (c : Bool) : (s.skipIf c).terminate = s.terminate := rfl
@[simp] theorem skipIf_tone (c : Bool) : (s.skipIf c).tone = s.tone := rfl
@[simp] theorem skipIf_draws (c : Bool) : (s.skipIf c).draws = s.draws := rfl
@[simp] theorem skipIf_params (c : Bool) : (s.skipIf c).params = s.params := rfl
@[simp] theorem skipIf_getV (c : Bool) (r : Reg) : (s.skipIf c).getV r = s.getV r := rfl
@[simp] theorem skipIf_memByte (c : Bool) (q : Nat) : (s.skipIf c).memByte q = s.memByte q := rfl

/-! `drawn` -/

@[simp] theorem drawn_mem : s.drawn.mem = s.mem := rfl
@[simp] theorem drawn_V : s.drawn.V = s.V := rfl
@[simp] theorem drawn_I : s.drawn.I = s.I := rfl
@[simp] theorem drawn_pc : s.drawn.pc = s.pc := rfl
@[simp] theorem drawn_stack : s.drawn.stack = s.stack := rfl
@[simp] theorem drawn_sp : s.drawn.sp = s.sp := rfl
@[simp] theorem drawn_dt : s.drawn.dt = s.dt := rfl
@[simp] theorem drawn_st : s.drawn.st = s.st := rfl
@[simp] theorem drawn_disp : s.drawn.disp = s.disp := rfl
@[simp] theorem drawn_dirty : s.drawn.dirty = s.dirty := rfl
@[simp] theorem drawn_keys : s.drawn.keys = s.keys := rfl
@[simp] theorem drawn_terminate : s.drawn.terminate = s.terminate := rfl
@[simp] theorem drawn_tone : s.drawn.tone = s.tone := rfl
@[simp] theorem drawn_draws : s.drawn.draws = s.draws + 1 := rfl
@[simp] theorem drawn_params : s.drawn.params = s.params := rfl
@[simp] theorem drawn_getV (r : Reg) : s.drawn.getV r = s.getV r := rfl
@[simp] theorem drawn_memByte (q : Nat) : s.drawn.memByte q = s.memByte q := rfl

/-! `setDt` -/

@[simp] theorem setDt_mem (b : Byte) : (s.setDt b).mem = s.mem := rfl
@[simp] theorem setDt_V (b : Byte) : (s.setDt b).V = s.V := rfl
@[simp] theorem setDt_I (b : Byte) : (s.setDt b).I = s.I := rfl
@[simp] theorem setDt_pc (b : Byte) : (s.setDt b).pc = s.pc := rfl
@[simp] theorem setDt_stack (b : Byte) : (s.setDt b).stack = s.stack := rfl
@[simp] theorem setDt_sp (b : Byte) : (s.setDt b).sp = s.sp := rfl
@[simp] theorem setDt_dt (b : Byte) : (s.setDt b).dt = b := rfl
@[simp] theorem setDt_st (b : Byte) : (s.setDt b).st = s.st := rfl
@[simp] theorem setDt_disp (b : Byte) : (s.setDt b).disp = s.disp := rfl
@[simp] theorem setDt_dirty (b : Byte) : (s.setDt b).dirty = s.dirty := rfl
@[simp] theorem setDt_keys (b : Byte) : (s.setDt b).keys = s.keys := rfl
@[simp] theorem setDt_terminate (b : Byte) : (s.setDt b).terminate = s.terminate := rfl
@[simp] theorem setDt_tone (b : Byte) : (s.setDt b).tone = s.tone := rfl
@[simp] theorem setDt_draws (b : Byte) : (s.setDt b).draws = s.draws := rfl
@[simp] theorem setDt_params (b : Byte) : (s.setDt b).params = s.params := rfl
@[simp] theorem setDt_getV (b : Byte) (r : Reg) : (s.setDt b).getV r = s.getV r := rfl
@[simp] theorem setDt_memByte (b : Byte) (q : Nat) : (s.setDt b).memByte q = s.memByte q := rfl

/-! `setSt` -/

@[simp] theorem setSt_mem (b : Byte) : (s.setSt b).mem = s.mem := rfl
@[simp] theorem setSt_V (b : Byte) : (s.setSt b).V = s.V := rfl
@[simp] theorem setSt_I (b : Byte) : (s.setSt b).I = s.I := rfl
@[simp] theorem setSt_pc (b : Byte) : (s.setSt b).pc = s.pc := rfl
@[simp] theorem setSt_stack (b : Byte) : (s.setSt b).stack = s.stack := rfl
@[simp] theorem setSt_sp (b : Byte) : (s.setSt b).sp = s.sp := rfl
@[simp] theorem setSt_dt (b : Byte) : (s.setSt b).dt = s.dt := rfl
@[simp] theorem setSt_st (b : Byte) : (s.setSt b).st = b := rfl
@[simp] theorem setSt_disp (b : Byte) : (s.setSt b).disp = s.disp := rfl
@[simp] theorem setSt_dirty (b : Byte) : (s.setSt b).dirty = s.dirty := rfl
@[simp] theorem setSt_keys (b : Byte) : (s.setSt b).keys = s.keys := rfl
@[simp] theorem setSt_terminate (b : Byte) : (s.setSt b).terminate = s.terminate := rfl
@[simp] theorem setSt_tone (b : Byte) : (s.setSt b).tone = s.tone := rfl
@[simp] theorem setSt_draws (b : Byte) : (s.setSt b).draws = s.draws := rfl
@[simp] theorem setSt_params (b : Byte) : (s.setSt b).params = s.params := rfl
@[simp] theorem setSt_getV (b : Byte) (r : Reg) : (s.setSt b).getV r = s.getV r := rfl
@[simp] theorem setSt_memByte (b : Byte) (q : Nat) : (s.setSt b).memByte q = s.memByte q := rfl

/-! `tick` -/

@[simp] theorem tick_mem : s.tick.mem = s.mem := rfl
@[simp] theorem tick_V : s.tick.V = s.V := rfl
@[simp] theorem tick_I : s.tick.I = s.I := rfl
@[simp] theorem tick_pc : s.tick.pc = s.pc := rfl
@[simp] theorem tick_stack : s.tick.stack = s.stack := rfl
@[simp] theorem tick_sp : s.tick.sp = s.sp := rfl
@[simp] theorem tick_dt : s.tick.dt = countDown s.dt := rfl
@[simp] theorem tick_st : s.tick.st = countDown s.st := rfl
@[simp] theorem tick_disp : s.tick.disp = s.disp := rfl
@[simp] theorem tick_dirty : s.tick.dirty = s.dirty := rfl
@[simp] theorem tick_keys : s.tick.keys = s.keys := rfl
@[simp] theorem tick_terminate : s.tick.terminate = s.terminate := rfl
@[simp] theorem tick_tone : s.tick.tone = decide (s.st = 1) := rfl
@[simp] theorem tick_draws : s.tick.draws = s.draws := rfl
@[simp] theorem tick_params : s.tick.params = s.params := rfl
@[simp] theorem tick_getV (r : Reg) : s.tick.getV r = s.getV r := rfl
@[simp] theorem tick_memByte (q : Nat) : s.tick.memByte q = s.memByte q := rfl

/-! `redraw` -/

@[simp] theorem redraw_mem (d : Display) : (s.redraw d).mem = s.mem := rfl
@[simp] theorem redraw_V (d : Display) : (s.redraw d).V = s.V := rfl
@[simp] theorem redraw_I (d : Display) : (s.redraw d).I = s.I := rfl
@[simp] theorem redraw_pc (d : Display) : (s.redraw d).pc = s.pc := rfl
@[simp] theorem redraw_stack (d : Display) : (s.redraw d).stack = s.stack := rfl
@[simp] theorem redraw_sp (d : Display) : (s.redraw d).sp = s.sp := rfl
@[simp] theorem redraw_dt (d : Display) : (s.redraw d).dt = s.dt := rfl
@[simp] theorem redraw_st (d : Display) : (s.redraw d).st = s.st := rfl
@[simp] theorem redraw_disp (d : Display) : (s.redraw d).disp = d := rfl
@[simp] theorem redraw_dirty (d : Display) : (s.redraw d).dirty = true := rfl
@[simp] theorem redraw_keys (d : Display) : (s.redraw d).keys = s.keys := rfl
@[simp] theorem redraw_terminate (d : Display) : (s.redraw d).terminate = s.terminate := rfl
@[simp] theorem redraw_tone (d : Display) : (s.redraw d).tone = s.tone := rfl
@[simp] theorem redraw_draws (d : Display) : (s.redraw d).draws = s.draws := rfl
@[simp] theorem redraw_params (d : Display) : (s.redraw d).params = s.params := rfl
@[simp] theorem redraw_getV (d : Display) (r : Reg) : (s.redraw d).getV r = s.getV r := rfl
@[simp] theorem redraw_memByte (d : Display) (q : Nat) : (s.redraw d).memByte q = s.memByte q := rfl

/-! `haltInvalidOpcode` -/

@[simp] theorem haltInvalidOpcode_mem : s.haltInvalidOpcode.mem = s.mem := rfl
@[simp] theorem haltInvalidOpcode_V : s.haltInvalidOpcode.V = s.V := rfl
@[simp] theorem haltInvalidOpcode_I : s.haltInvalidOpcode.I = s.I := rfl
@[simp] theorem haltInvalidOpcode_pc : s.haltInvalidOpcode.pc = s.pc := rfl
@[simp] theorem haltInvalidOpcode_stack : s.haltInvalidOpcode.stack = s.stack := rfl
@[simp] theorem haltInvalidOpcode_sp : s.haltInvalidOpcode.sp = s.sp := rfl
@[simp] theorem haltInvalidOpcode_dt : s.haltInvalidOpcode.dt = s.dt := rfl
@[simp] theorem haltInvalidOpcode_st : s.haltInvalidOpcode.st = s.st := rfl
@[simp] theorem haltInvalidOpcode_disp : s.haltInvalidOpcode.disp = s.disp := rfl
@[simp] theorem haltInvalidOpcode_dirty : s.haltInvalidOpcode.dirty = s.dirty := rfl
@[simp] theorem haltInvalidOpcode_keys : s.haltInvalidOpcode.keys = s.keys := rfl
@[simp] theorem haltInvalidOpcode_terminate : s.haltInvalidOpcode.terminate = true := rfl
@[simp] theorem haltInvalidOpcode_tone : s.haltInvalidOpcode.tone = false := rfl
@[simp] theorem haltInvalidOpcode_draws : s.haltInvalidOpcode.draws = s.draws := rfl
@[simp] theorem haltInvalidOpcode_params : s.haltInvalidOpcode.params = s.params := rfl
@[simp] theorem haltInvalidOpcode_getV (r : Reg) : s.haltInvalidOpcode.getV r = s.getV r := rfl
@[simp] theorem haltInvalidOpcode_memByte (q : Nat) : s.haltInvalidOpcode.memByte q = s.memByte q := rfl

/-! `stayHalted` -/

@[simp] theorem stayHalted_mem : s.stayHalted.mem = s.mem := rfl
@[simp] theorem stayHalted_V : s.stayHalted.V = s.V := rfl
@[simp] theorem stayHalted_I : s.stayHalted.I = s.I := rfl
@[simp] theorem stayHalted_pc : s.stayHalted.pc = s.pc := rfl
@[simp] theorem stayHalted_stack : s.stayHalted.stack = s.stack := rfl
@[simp] theorem stayHalted_sp : s.stayHalted.sp = s.sp := rfl
@[simp] theorem stayHalted_dt : s.stayHalted.dt = s.dt := rfl
@[simp] theorem stayHalted_st : s.stayHalted.st = s.st := rfl
@[simp] theorem stayHalted_disp : s.stayHalted.disp = s.disp := rfl
@[simp] theorem stayHalted_dirty : s.stayHalted.dirty = s.dirty := rfl
@[simp] theorem stayHalted_keys : s.stayHalted.keys = s.keys := rfl
@[simp] theorem stayHalted_terminate : s.stayHalted.terminate = s.terminate := rfl
@[simp] theorem stayHalted_tone : s.stayHalted.tone = false := rfl
@[simp] theorem stayHalted_draws : s.stayHalted.draws = s.draws := rfl
@[simp] theorem stayHalted_params : s.stayHalted.params = s.params := rfl
@[simp] theorem stayHalted_getV (r : Reg) : s.stayHalted.getV r = s.getV r := rfl
@[simp] theorem stayHalted_memByte (q : Nat) : s.stayHalted.memByte q = s.memByte q := rfl

/-! `hostSetKey` -/

@[simp] theorem hostSetKey_mem (k : Key) (l : Bool) : (s.hostSetKey k l).mem = s.mem := rfl
@[simp] theorem hostSetKey_V (k : Key) (l : Bool) : (s.hostSetKey k l).V = s.V := rfl
@[simp] theorem hostSetKey_I (k : Key) (l : Bool) : (s.hostSetKey k l).I = s.I := rfl
@[simp] theorem hostSetKey_pc (k : Key) (l : Bool) : (s.hostSetKey k l).pc = s.pc := rfl
@[simp] theorem hostSetKey_stack (k : Key) (l : Bool) : (s.hostSetKey k l).stack = s.stack := rfl
@[simp] theorem hostSetKey_sp (k : Key) (l : Bool) : (s.hostSetKey k l).sp = s.sp := rfl
@[simp] theorem hostSetKey_dt (k : Key) (l : Bool) : (s.hostSetKey k l).dt = s.dt := rfl
@[simp] theorem hostSetKey_st (k : Key) (l : Bool) : (s.hostSetKey k l).st = s.st := rfl
@[simp] theorem hostSetKey_disp (k : Key) (l : Bool) : (s.hostSetKey k l).disp = s.disp := rfl
@[simp] theorem hostSetKey_dirty (k : Key) (l : Bool) : (s.hostSetKey k l).dirty = s.dirty := rfl
@[simp] theorem hostSetKey_keys (k : Key) (l : Bool) : (s.hostSetKey k l).keys = s.keys.set k l := rfl
@[simp] theorem hostSetKey_terminate (k : Key) (l : Bool) : (s.hostSetKey k l).terminate = s.terminate := rfl
@[simp] theorem hostSetKey_tone (k : Key) (l : Bool) : (s.hostSetKey k l).tone = s.tone := rfl
@[simp] theorem hostSetKey_draws (k : Key) (l : Bool) : (s.hostSetKey k l).draws = s.draws := rfl
@[simp] theorem hostSetKey_params (k : Key) (l : Bool) : (s.hostSetKey k l).params = s.params := rfl
@[simp] theorem hostSetKey_getV (k : Key) (l : Bool) (r : Reg) : (s.hostSetKey k l).getV r = s.getV r := rfl
@[simp] theorem hostSetKey_memByte (k : Key) (l : Bool) (q : Nat) : (s.hostSetKey k l).memByte q = s.memByte q := rfl

/-! `hostClearDirty` -/

@[simp] theorem hostClearDirty_mem : s.hostClearDirty.mem = s.mem := rfl
@[simp] theorem hostClearDirty_V : s.hostClearDirty.V = s.V := rfl
@[simp] theorem hostClearDirty_I : s.hostClearDirty.I = s.I := rfl
@[simp] theorem hostClearDirty_pc : s.hostClearDirty.pc = s.pc := rfl
@[simp] theorem hostClearDirty_stack : s.hostClearDirty.stack = s.stack := rfl
@[simp] theorem hostClearDirty_sp : s.hostClearDirty.sp = s.sp := rfl
@[simp] theorem hostClearDirty_dt : s.hostClearDirty.dt = s.dt := rfl
@[simp] theorem hostClearDirty_st : s.hostClearDirty.st = s.st := rfl
@[simp] theorem hostClearDirty_disp : s.hostClearDirty.disp = s.disp := rfl
@[simp] theorem hostClearDirty_dirty : s.hostClearDirty.dirty = false := rfl
@[simp] theorem hostClearDirty_keys : s.hostClearDirty.keys = s.keys := rfl
@[simp] theorem hostClearDirty_terminate : s.hostClearDirty.terminate = s.terminate := rfl
@[simp] theorem hostClearDirty_tone : s.hostClearDirty.tone = s.tone := rfl
@[simp] theorem hostClearDirty_draws : s.hostClearDirty.draws = s.draws := rfl
@[simp] theorem hostClearDirty_params : s.hostClearDirty.params = s.params := rfl
@[simp] theorem hostClearDirty_getV (r : Reg) : s.hostClearDirty.getV r = s.getV r := rfl
@[simp] theorem hostClearDirty_memByte (q : Nat) : s.hostClearDirty.memByte q = s.memByte q := rfl

/-! Registers after a register write. -/

theorem getV_setV (x r : Reg) (b : Byte) : (s.setV x b).getV r = if r = x then b else s.getV r := by
  simp only [getV, setV, Fin.getElem_fin, Vector.getElem_set, Fin.ext_iff, eq_comm]

@[simp] theorem getV_setV_same (x : Reg) (b : Byte) : (s.setV x b).getV x = b := by
  simp [getV_setV]

theorem getV_setV_other {x r : Reg} (b : Byte) (h : r ≠ x) : (s.setV x b).getV r = s.getV r := by
  simp [getV_setV, h]

/-- The result is written last: it is what `x` holds, VF included (41_arith.md R161). -/
theorem getV_setFlagThenV (f b : Byte) (x r : Reg) :
    (s.setFlagThenV f x b).getV r = if r = x then b else if r = 0xF then f else s.getV r := by
  simp only [setFlagThenV, getV_setV]

end Sys2Proof.Machine.State
end

