-- ==== Sys2Proof/Laws/Ops.lean ====
section
/-! SUPPORT. What each shared operation can do, said once: byte sequences, the fetch, the stack,
register blocks, the key choice. -/

namespace Sys2Proof.Machine

/-! One byte. -/

theorem State.memByte_write (s : State) (q r : Nat) (v : Byte) :
    State.memByte { s with mem := Memory.write s.params s.mem q v } r =
      if r = q then v else s.memByte r := Memory.read_write ..

theorem State.readByte_inside (s : State) {a : Nat} (h : a ≤ 0xFFF) :
    s.readByte a = some (s.memByte a) := by simp [State.readByte, phys_inside _ h]

theorem State.readByte_eq_none {s : State} {a : Nat} :
    s.readByte a = none ↔ s.params.addrPolicy = .fault ∧ 0xFFF < a := by
  simp [State.readByte, phys_eq_none]

theorem State.writeByte_eq_some {s t : State} {a : Nat} {v : Byte} :
    s.writeByte a v = some t ↔ ∃ q, phys s.params.addrPolicy a = some q ∧
      t = { s with mem := Memory.write s.params s.mem q v } := by
  rw [State.writeByte, Option.map_eq_some_iff]
  exact exists_congr fun q => and_congr_right fun _ => eq_comm

theorem State.writeByte_eq_none {s : State} {a : Nat} {v : Byte} :
    s.writeByte a v = none ↔ s.params.addrPolicy = .fault ∧ 0xFFF < a := by
  simp [State.writeByte, phys_eq_none]

/-! Byte sequences (20_memory.md R65). -/

/-- A sequence read gives byte `k` of the sequence from address `a + k`. -/
theorem State.readBytes_spec {s : State} (n : Nat) : ∀ {a : Nat} {bs : List Byte},
    s.readBytes a n = some bs →
      bs.length = n ∧ ∀ k (h : k < bs.length), s.readByte (a + k) = some bs[k] := by
  induction n with
  | zero => intro a bs h; simp [State.readBytes] at h; subst h; simp
  | succ n ih =>
    intro a bs h
    simp only [State.readBytes] at h
    split at h
    · simp at h
    · next b hb =>
      obtain ⟨bs', h', rfl⟩ := Option.map_eq_some_iff.1 h
      obtain ⟨hl, hk⟩ := ih h'
      refine ⟨by simp [hl], fun k hlt => ?_⟩
      cases k with
      | zero => simpa using hb
      | succ k =>
        simp only [List.length_cons] at hlt
        have := hk k (by omega)
        rw [show a + 1 + k = a + (k + 1) by omega] at this
        simpa using this

/-- A sequence read faults exactly when one of its addresses does. -/
theorem State.readBytes_eq_none {s : State} (n : Nat) : ∀ {a : Nat},
    s.readBytes a n = none ↔ s.params.addrPolicy = .fault ∧ 0 < n ∧ 0xFFF < a + (n - 1) := by
  induction n with
  | zero => intro a; simp [State.readBytes]
  | succ n ih =>
    intro a
    simp only [State.readBytes]
    split
    · next h =>
      have := State.readByte_eq_none.1 h
      simp only [true_iff]
      exact ⟨this.1, by omega, by omega⟩
    · next b h =>
      have hb : ¬ (s.params.addrPolicy = .fault ∧ 0xFFF < a) := by
        rw [← State.readByte_eq_none, h]; simp
      rw [Option.map_eq_none_iff, ih]
      constructor
      · rintro ⟨h1, h2, h3⟩; exact ⟨h1, by omega, by omega⟩
      · rintro ⟨h1, h2, h3⟩
        have : ¬ 0xFFF < a := fun h => hb ⟨h1, h⟩
        exact ⟨h1, by omega, by omega⟩

/-- A sequence write changes memory and nothing else, and keeps the canonical form. -/
theorem State.writeBytes_frame (bs : List Byte) : ∀ {s t : State} {a : Nat},
    s.writeBytes a bs = some t →
      (∃ m, t = { s with mem := m }) ∧ (Memory.wf s.params s.mem → Memory.wf t.params t.mem) ∧
      ∀ q, (∀ k, k < bs.length → phys s.params.addrPolicy (a + k) ≠ some q) →
        t.memByte q = s.memByte q := by
  induction bs with
  | nil => intro s t a h; simp [State.writeBytes] at h; subst h; exact ⟨⟨_, rfl⟩, id, fun _ _ => rfl⟩
  | cons b bs ih =>
    intro s t a h
    simp only [State.writeBytes] at h
    split at h
    · simp at h
    · next u hu =>
      obtain ⟨q, hq, rfl⟩ := State.writeByte_eq_some.1 hu
      obtain ⟨⟨m, rfl⟩, hwf, hfr⟩ := ih h
      refine ⟨⟨m, rfl⟩, fun hw => hwf (Memory.wf_write hw (phys_lt hq) b), fun r hr => ?_⟩
      rw [hfr r fun k hk => ?_, State.memByte_write, if_neg]
      · rintro rfl; exact hr 0 (by simp) (by simpa using hq)
      · have := hr (k + 1) (by simp; omega)
        rwa [show a + (k + 1) = a + 1 + k by omega] at this

/-- A sequence write of at most 4096 bytes puts byte `k` of the sequence at address `a + k`. -/
theorem State.writeBytes_stored (bs : List Byte) : ∀ {s t : State} {a : Nat},
    s.writeBytes a bs = some t → bs.length ≤ 4096 →
      ∀ k (h : k < bs.length), ∃ q, phys s.params.addrPolicy (a + k) = some q ∧
        t.memByte q = bs[k] := by
  induction bs with
  | nil => intro s t a h _ k hk; simp at hk
  | cons b bs ih =>
    intro s t a h hlen k hk
    simp only [State.writeBytes] at h
    split at h
    · simp at h
    · next u hu =>
      obtain ⟨q, hq, rfl⟩ := State.writeByte_eq_some.1 hu
      simp only [List.length_cons] at hlen hk
      cases k with
      | zero =>
        refine ⟨q, by simpa using hq, ?_⟩
        rw [(State.writeBytes_frame bs h).2.2 q fun k hk h2 => ?_, State.memByte_write]
        · simp
        · have e1 := phys_mod hq
          have e2 := phys_mod h2
          omega
      | succ k =>
        obtain ⟨r, hr, hb⟩ := ih h (by omega) k (by omega)
        exact ⟨r, by rw [← hr]; congr 1; omega, by simpa using hb⟩

/-- A sequence write faults exactly when one of its addresses does. -/
theorem State.writeBytes_eq_none (bs : List Byte) : ∀ {s : State} {a : Nat},
    s.writeBytes a bs = none ↔
      s.params.addrPolicy = .fault ∧ 0 < bs.length ∧ 0xFFF < a + (bs.length - 1) := by
  induction bs with
  | nil => intro s a; simp [State.writeBytes]
  | cons b bs ih =>
    intro s a
    simp only [State.writeBytes, List.length_cons]
    split
    · next h =>
      have := State.writeByte_eq_none.1 h
      simp only [true_iff]
      exact ⟨this.1, by omega, by omega⟩
    · next u h =>
      have hb : ¬ (s.params.addrPolicy = .fault ∧ 0xFFF < a) := by
        rw [← State.writeByte_eq_none (v := b), h]; simp
      obtain ⟨q, hq, rfl⟩ := State.writeByte_eq_some.1 h
      rw [ih]
      constructor
      · rintro ⟨h1, h2, h3⟩; exact ⟨h1, by omega, by omega⟩
      · rintro ⟨h1, h2, h3⟩
        have : ¬ 0xFFF < a := fun h => hb ⟨h1, h⟩
        exact ⟨h1, by omega, by omega⟩

/-- A sequence read sees memory and the parameters alone. -/
theorem State.readBytes_congr {s t : State} (hp : t.params = s.params) (hm : t.mem = s.mem)
    (n : Nat) : ∀ a, t.readBytes a n = s.readBytes a n := by
  have hb : t.memByte = s.memByte := by funext q; simp only [State.memByte, hp, hm]
  induction n with
  | zero => intro a; rfl
  | succ n ih => intro a; simp only [State.readBytes, State.readByte, hp, hb, ih]

/-- A sequence write sees memory and the parameters alone, and carries the rest of the state
through. -/
theorem State.writeBytes_congr (bs : List Byte) : ∀ {s t : State} (a : Nat),
    t.params = s.params → t.mem = s.mem →
      t.writeBytes a bs = (s.writeBytes a bs).map fun u => { t with mem := u.mem } := by
  induction bs with
  | nil => intro s t a hp hm; simp only [State.writeBytes, Option.map_some, ← hm]
  | cons b bs ih =>
    intro s t a hp hm
    cases s; cases t; subst hp hm
    simp only [State.writeBytes, State.writeByte]
    cases phys _ a with
    | none => rfl
    | some q =>
      simp only [Option.map_some]
      exact ih (a + 1) rfl rfl

/-! The fetch (40_dispatch.md R122). -/

theorem wordOfBytes_high_low (w : Word) : wordOfBytes (highByte w) (lowByte w) = w := by
  apply BitVec.eq_of_toNat_eq
  simp only [wordOfBytes, highByte, lowByte, BitVec.toNat_append, BitVec.extractLsb'_toNat,
    Nat.shiftRight_eq_div_pow, Nat.shiftLeft_eq]
  rw [← Nat.shiftLeft_eq, ← Nat.shiftLeft_add_eq_or_of_lt (by omega), Nat.shiftLeft_eq]
  omega

theorem highByte_wordOfBytes (hi lo : Byte) : highByte (wordOfBytes hi lo) = hi := by
  apply BitVec.eq_of_toNat_eq
  simp only [wordOfBytes, highByte, BitVec.toNat_append, BitVec.extractLsb'_toNat,
    Nat.shiftRight_eq_div_pow]
  rw [← Nat.shiftLeft_add_eq_or_of_lt lo.isLt, Nat.shiftLeft_eq]
  omega

theorem lowByte_wordOfBytes (hi lo : Byte) : lowByte (wordOfBytes hi lo) = lo := by
  apply BitVec.eq_of_toNat_eq
  simp only [wordOfBytes, lowByte, BitVec.toNat_append, BitVec.extractLsb'_toNat,
    Nat.shiftRight_eq_div_pow]
  rw [← Nat.shiftLeft_add_eq_or_of_lt lo.isLt, Nat.shiftLeft_eq]
  omega

theorem State.fetchWord_eq_none {s : State} :
    s.fetchWord = none ↔ s.params.addrPolicy = .fault ∧ 0xFFF ≤ s.pc.toNat := by
  rcases h1 : s.readByte s.pc.toNat with _ | hi
  · have := State.readByte_eq_none.1 h1
    simp only [State.fetchWord, h1, true_iff]
    exact ⟨this.1, by omega⟩
  · have n1 : ¬ (s.params.addrPolicy = .fault ∧ 0xFFF < s.pc.toNat) := by
      rw [← State.readByte_eq_none, h1]; simp
    rcases h2 : s.readByte (s.pc.toNat + 1) with _ | lo
    · have := State.readByte_eq_none.1 h2
      simp only [State.fetchWord, h1, h2, true_iff]
      exact ⟨this.1, by omega⟩
    · have n2 : ¬ (s.params.addrPolicy = .fault ∧ 0xFFF < s.pc.toNat + 1) := by
        rw [← State.readByte_eq_none, h2]; simp
      simp only [State.fetchWord, h1, h2]
      constructor
      · intro h; simp at h
      · rintro ⟨a, b⟩; exact absurd ⟨a, by omega⟩ n2

/-- A placed word is the word the fetch reads. -/
theorem State.fetchWord_placeWord {s t : State} {op : Word} (h : s.placeWord op = some t) :
    t.fetchWord = some op := by
  obtain ⟨⟨m, rfl⟩, -, -⟩ := State.writeBytes_frame _ h
  have hb := State.writeBytes_stored _ h (by simp)
  obtain ⟨q0, h0, e0⟩ := hb 0 (by simp)
  obtain ⟨q1, h1, e1⟩ := hb 1 (by simp)
  simp only [State.fetchWord, State.readByte]
  simp only [Nat.add_zero] at h0
  rw [h0, h1]
  simp only [Option.map_some, e0, e1]
  simp [wordOfBytes_high_low]

/-- A word is always placed, but at an address memory lacks. -/
theorem State.placeWord_eq_none {s : State} {op : Word} :
    s.placeWord op = none ↔ s.params.addrPolicy = .fault ∧ 0xFFF ≤ s.pc.toNat := by
  simp [State.placeWord, State.writeBytes_eq_none]

/-- `withFetchWord` does what it is for, in every state: the CORE is running and the next fetch
reads the word. -/
theorem State.withFetchWord_fetches (s : State) (nbits w : Nat) :
    (s.withFetchWord nbits w).terminate = false ∧
      (s.withFetchWord nbits w).fetchWord = some (BitVec.ofNat 16 (w % 2 ^ nbits)) := by
  simp only [State.withFetchWord]
  split
  · next t h =>
    refine ⟨?_, State.fetchWord_placeWord h⟩
    obtain ⟨⟨m, rfl⟩, -, -⟩ := State.writeBytes_frame _ h
    rfl
  · next h =>
    rcases h2 : State.placeWord (State.setPc { s with terminate := false } 0x200)
      (BitVec.ofNat 16 (w % 2 ^ nbits)) with _ | t
    · exact absurd (State.placeWord_eq_none.1 h2).2 (by simp)
    · refine ⟨?_, State.fetchWord_placeWord h2⟩
      obtain ⟨⟨m, rfl⟩, -, -⟩ := State.writeBytes_frame _ h2
      rfl

/-! The stack (10_state.md R37, R48). -/

theorem State.push_eq_none {s : State} {a : Word} : s.push a = none ↔ s.sp = 16 := by
  simp only [State.push]
  split <;> simp [Fin.ext_iff] <;> omega

theorem State.push_eq_some {s t : State} {a : Word} (h : s.push a = some t) :
    ∃ hs : s.sp.val < 16, t = { s with
      stack := s.stack.set s.sp.val a hs, sp := ⟨s.sp.val + 1, by omega⟩ } := by
  simp only [State.push] at h
  split at h
  · next hs => exact ⟨hs, by simpa using h.symm⟩
  · simp at h

theorem State.pop_eq_none {s : State} : s.pop = none ↔ s.sp = 0 := by
  simp only [State.pop]
  split
  · next h => exact ⟨fun e => (nomatch e), fun e => absurd h (by rw [e]; decide)⟩
  · next h => exact ⟨fun _ => Fin.ext (by simpa using h), fun _ => rfl⟩

theorem State.pop_eq_some {s t : State} {a : Word} (h : s.pop = some (a, t)) :
    ∃ hs : 0 < s.sp.val, a = s.stack[s.sp.val - 1] ∧
      t = { s with sp := ⟨s.sp.val - 1, by omega⟩ } := by
  simp only [State.pop] at h
  split at h
  · next hs =>
    obtain ⟨rfl, rfl⟩ := Prod.mk.inj (Option.some.inj h)
    exact ⟨hs, rfl, rfl⟩
  · simp at h

/-! Register blocks (42_memory_ops.md R195, R196). -/

theorem writeRegs_getElem (bs : List Byte) : ∀ (i : Nat) (v : Vector Byte 16) (r : Nat) (hr : r < 16),
    (writeRegs i bs v)[r] = if h : i ≤ r ∧ r < i + bs.length then bs[r - i]'(by omega) else v[r] := by
  induction bs with
  | nil => intro i v r hr; rw [dif_neg (by simp)]; rfl
  | cons b bs ih =>
    intro i v r hr
    simp only [writeRegs, ih, List.length_cons, Vector.getElem_setIfInBounds]
    by_cases h1 : r = i
    · subst r; simp
    · by_cases h2 : i + 1 ≤ r ∧ r < i + 1 + bs.length
      · rw [dif_pos h2, dif_pos (by omega)]
        obtain ⟨k, rfl⟩ : ∃ k, r = i + 1 + k := ⟨r - (i + 1), by omega⟩
        simp only [show i + 1 + k - i = k + 1 by omega, show i + 1 + k - (i + 1) = k by omega,
          List.getElem_cons_succ]
      · rw [dif_neg h2, dif_neg (by omega), if_neg (by omega)]

theorem State.getV_setRegs (s : State) (bs : List Byte) (r : Reg) :
    (s.setRegs bs).getV r = if h : r.val < bs.length then bs[r.val] else s.getV r := by
  simp only [State.getV, State.setRegs, Fin.getElem_fin, writeRegs_getElem]
  simp

theorem State.regsUpTo_length (s : State) (x : Reg) : (s.regsUpTo x).length = x.val + 1 := by
  simp [State.regsUpTo]

theorem State.regsUpTo_getElem (s : State) (x : Reg) (k : Nat) (h : k < (s.regsUpTo x).length) :
    (s.regsUpTo x)[k] = s.getV ⟨k, by rw [State.regsUpTo_length] at h; omega⟩ := by
  simp [State.regsUpTo, State.getV]

/-! Keys (44_input_timers.md R231, R234). -/

theorem keyOf_eq_none {b : Byte} : keyOf b = none ↔ 0xF < b.toNat := by
  simp only [keyOf]; split <;> simp <;> omega

theorem keyOf_eq_some {b : Byte} {k : Key} : keyOf b = some k ↔ b.toNat = k.val := by
  simp only [keyOf]; split <;> simp [Fin.ext_iff]
  omega

theorem State.mem_pressedKeys {s : State} {k : Key} : k ∈ s.pressedKeys ↔ s.pressed k = true := by
  simp [State.pressedKeys]

/-- The chosen key is one of the set, whatever the free number is. -/
theorem pickKey_mem (d : Nat) (k : Key) (ks : List Key) : pickKey d k ks ∈ k :: ks := by
  have h : d % (ks.length + 1) < (k :: ks).length := Nat.mod_lt _ (by simp)
  simp only [pickKey, List.getD_eq_getElem _ _ h]
  exact List.getElem_mem h

/-- Every key of the set is chosen by some number: the model admits every draw. -/
theorem pickKey_surjective {j k : Key} {ks : List Key} (h : j ∈ k :: ks) :
    ∃ d, pickKey d k ks = j := by
  obtain ⟨d, hd, rfl⟩ := List.getElem_of_mem h
  refine ⟨d, ?_⟩
  simp only [List.length_cons] at hd
  simp [pickKey, Nat.mod_eq_of_lt hd, hd]

end Sys2Proof.Machine
end

