-- ==== Sys2Proof/Laws/PerInstr.lean ====
section
/-! SUPPORT. Facts about every instruction as syntax, one lemma per constructor. -/

namespace Sys2Proof.Laws.EncodingKey

/-- The word of an instruction carries the fixed bits of its row of spec/opcode_table.json, whatever
its operands are (30_encoding.md R94, R95). -/
def Statement (i : Instr) : Prop := encode i &&& i.key.1 = i.key.2

theorem layoutA_key {f : Nat} {k : Word} (nnn : Word) (hf : f < 16) (hk : k.toNat = f * 0x1000) :
    layoutA f nnn &&& 0xF000 = k := and_family (by rw [layoutA_toNat nnn hf, hk]; omega)

theorem layoutXI_key {f : Nat} {k : Word} (x : Reg) (nn : Byte) (hf : f < 16)
    (hk : k.toNat = f * 0x1000) : layoutXI f x nn &&& 0xF000 = k :=
  and_family (by rw [layoutXI_toNat x nn hf, hk]; omega)

theorem layoutXY_key {f : Nat} {k : Word} (x y : Reg) (n : Nat) (hf : f < 16)
    (hk : k.toNat = f * 0x1000) : layoutXYN f x y n &&& 0xF000 = k :=
  and_family (by rw [layoutXYN_toNat x y n hf, hk]; omega)

theorem layoutXYN_key {f n : Nat} {k : Word} (x y : Reg) (hf : f < 16) (hn : n < 16)
    (hk : k.toNat = f * 0x1000 + n) : layoutXYN f x y n &&& 0xF00F = k :=
  and_nibble (by rw [layoutXYN_toNat x y n hf, hk]; omega)

theorem layoutXK_key {f b : Nat} {k : Word} (x : Reg) (hf : f < 16) (hb : b < 256)
    (hk : k.toNat = f * 0x1000 + b) : layoutXK f x b &&& 0xF0FF = k :=
  and_byte (by rw [layoutXK_toNat x hf hb, hk]; omega)

theorem cls : Statement .cls := rfl
theorem ret : Statement .ret := rfl
theorem jp (nnn : Word) : Statement (.jp nnn) := layoutA_key nnn (by decide) rfl
theorem call (nnn : Word) : Statement (.call nnn) := layoutA_key nnn (by decide) rfl
theorem seImm (x : Reg) (nn : Byte) : Statement (.seImm x nn) := layoutXI_key x nn (by decide) rfl
theorem sneImm (x : Reg) (nn : Byte) : Statement (.sneImm x nn) := layoutXI_key x nn (by decide) rfl
theorem seReg (x y : Reg) : Statement (.seReg x y) := layoutXY_key x y 0 (by decide) rfl
theorem ldImm (x : Reg) (nn : Byte) : Statement (.ldImm x nn) := layoutXI_key x nn (by decide) rfl
theorem addImm (x : Reg) (nn : Byte) : Statement (.addImm x nn) := layoutXI_key x nn (by decide) rfl
theorem ldReg (x y : Reg) : Statement (.ldReg x y) := layoutXYN_key x y (by decide) (by decide) rfl
theorem orReg (x y : Reg) : Statement (.orReg x y) := layoutXYN_key x y (by decide) (by decide) rfl
theorem andReg (x y : Reg) : Statement (.andReg x y) := layoutXYN_key x y (by decide) (by decide) rfl
theorem xorReg (x y : Reg) : Statement (.xorReg x y) := layoutXYN_key x y (by decide) (by decide) rfl
theorem addReg (x y : Reg) : Statement (.addReg x y) := layoutXYN_key x y (by decide) (by decide) rfl
theorem subReg (x y : Reg) : Statement (.subReg x y) := layoutXYN_key x y (by decide) (by decide) rfl
theorem shr (x y : Reg) : Statement (.shr x y) := layoutXYN_key x y (by decide) (by decide) rfl
theorem subn (x y : Reg) : Statement (.subn x y) := layoutXYN_key x y (by decide) (by decide) rfl
theorem shl (x y : Reg) : Statement (.shl x y) := layoutXYN_key x y (by decide) (by decide) rfl
theorem sneReg (x y : Reg) : Statement (.sneReg x y) := layoutXY_key x y 0 (by decide) rfl
theorem ldI (nnn : Word) : Statement (.ldI nnn) := layoutA_key nnn (by decide) rfl
theorem jpV0 (nnn : Word) : Statement (.jpV0 nnn) := layoutA_key nnn (by decide) rfl
theorem rnd (x : Reg) (nn : Byte) : Statement (.rnd x nn) := layoutXI_key x nn (by decide) rfl
theorem drw (x y : Reg) (n : Nat) : Statement (.drw x y n) := layoutXY_key x y n (by decide) rfl
theorem skp (x : Reg) : Statement (.skp x) := layoutXK_key x (by decide) (by decide) rfl
theorem sknp (x : Reg) : Statement (.sknp x) := layoutXK_key x (by decide) (by decide) rfl
theorem ldVxDt (x : Reg) : Statement (.ldVxDt x) := layoutXK_key x (by decide) (by decide) rfl
theorem ldVxK (x : Reg) : Statement (.ldVxK x) := layoutXK_key x (by decide) (by decide) rfl
theorem ldDtVx (x : Reg) : Statement (.ldDtVx x) := layoutXK_key x (by decide) (by decide) rfl
theorem ldStVx (x : Reg) : Statement (.ldStVx x) := layoutXK_key x (by decide) (by decide) rfl
theorem addI (x : Reg) : Statement (.addI x) := layoutXK_key x (by decide) (by decide) rfl
theorem ldF (x : Reg) : Statement (.ldF x) := layoutXK_key x (by decide) (by decide) rfl
theorem ldB (x : Reg) : Statement (.ldB x) := layoutXK_key x (by decide) (by decide) rfl
theorem storeRegs (x : Reg) : Statement (.storeRegs x) := layoutXK_key x (by decide) (by decide) rfl
theorem loadRegs (x : Reg) : Statement (.loadRegs x) := layoutXK_key x (by decide) (by decide) rfl

end Sys2Proof.Laws.EncodingKey
end

