-- ==== Sys2Proof/Laws/Step.lean ====
section
/-! SUPPORT. What a step can do, said once, and what the meanings with more than one outcome do. -/

namespace Sys2Proof.Machine

/-- A step that gives a next state found the CORE halted, or halted it, or executed an instruction
and ticked (40_dispatch.md R120). -/
theorem step_cases {s t : State} (h : step s = .next t) :
    (s.terminate = true ∧ t = s.stayHalted) ∨
    (s.terminate = false ∧ ∃ op e, s.fetchWord = some op ∧ decodeWord op = .error e ∧
      t = s.haltInvalidOpcode) ∨
    (s.terminate = false ∧ ∃ op i u, s.fetchWord = some op ∧ decodeWord op = .ok i ∧
      exec i s = .next u ∧ t = u.tick) := by
  unfold step at h
  split at h
  · next ht => exact .inl ⟨ht, by simpa using h.symm⟩
  · next ht =>
    have ht : s.terminate = false := by simpa using ht
    split at h
    · cases h
    · next op hop =>
      split at h
      · next e he => exact .inr (.inl ⟨ht, op, e, hop, he, by simpa using h.symm⟩)
      · next i hi =>
        rcases hx : exec i s with u | f | r <;> rw [hx] at h <;> simp [finishStep] at h
        exact .inr (.inr ⟨ht, op, i, u, hop, hi, hx, h.symm⟩)

/-- A running CORE whose word is an instruction executes it and ticks. -/
theorem step_of_decode {s : State} {op : Word} {i : Instr} (ht : s.terminate = false)
    (hf : s.fetchWord = some op) (hd : decodeWord op = .ok i) : step s = finishStep (exec i s) := by
  simp [step, ht, hf, hd]

theorem storeAtI_next {bs : List Byte} {s t : State} (h : storeAtI bs s = .next t) :
    ∃ u, s.writeBytes (s.effAddr 0) bs = some u ∧ t = u.advance := by
  unfold storeAtI at h
  split at h
  · cases h
  · next u hu => exact ⟨u, hu, by simpa using h.symm⟩

theorem execLoadRegs_next {x : Reg} {s t : State} (h : execLoadRegs x s = .next t) :
    ∃ bs, s.readBytes (s.effAddr 0) (x.val + 1) = some bs ∧ t = (s.setRegs bs).advance := by
  unfold execLoadRegs at h
  split at h
  · cases h
  · next bs hb => exact ⟨bs, hb, by simpa using h.symm⟩

theorem execDrw_next {x y : Reg} {n : Nat} {s t : State} (h : execDrw x y n s = .next t) :
    ∃ bs, s.readBytes (s.effAddr 0) n = some bs ∧
      t = ((s.redraw (drawRows (s.getV x).toNat (s.getV y).toNat bs (s.disp, false)).1).setV 0xF
        (collisionFlag (drawRows (s.getV x).toNat (s.getV y).toNat bs (s.disp, false)).2)).advance := by
  unfold execDrw at h
  split at h
  · cases h
  · next bs hb => exact ⟨bs, hb, by simpa using h.symm⟩

theorem execRet_next {s t : State} (h : execRet s = .next t) :
    ∃ hs : 0 < s.sp.val, t = { s with
      sp := ⟨s.sp.val - 1, by omega⟩, pc := s.stack[s.sp.val - 1] + 2 } := by
  unfold execRet at h
  split at h
  · cases h
  · next a u hu =>
    obtain ⟨hs, rfl, rfl⟩ := State.pop_eq_some hu
    exact ⟨hs, by simpa [State.setPc] using h.symm⟩

theorem execCall_next {nnn : Word} {s t : State} (h : execCall nnn s = .next t) :
    ∃ hs : s.sp.val < 16, t = { s with
      stack := s.stack.set s.sp.val s.pc hs, sp := ⟨s.sp.val + 1, by omega⟩, pc := nnn } := by
  unfold execCall at h
  split at h
  · cases h
  · next u hu =>
    obtain ⟨hs, rfl⟩ := State.push_eq_some hu
    exact ⟨hs, by simpa [State.setPc] using h.symm⟩

theorem execSkp_next {x : Reg} {s t : State} (h : execSkp x s = .next t) :
    ∃ k, keyOf (s.getV x) = some k ∧ t = s.skipIf (s.pressed k) := by
  unfold execSkp at h
  split at h
  · cases h
  · next k hk => exact ⟨k, hk, by simpa using h.symm⟩

theorem execSknp_next {x : Reg} {s t : State} (h : execSknp x s = .next t) :
    ∃ k, keyOf (s.getV x) = some k ∧ t = s.skipIf (!s.pressed k) := by
  unfold execSknp at h
  split at h
  · cases h
  · next k hk => exact ⟨k, hk, by simpa using h.symm⟩

/-- FX0A waits, or takes one of the pressed keys. -/
theorem execLdVxK_next {x : Reg} {s t : State} (h : execLdVxK x s = .next t) :
    (s.pressedKeys = [] ∧ t = s) ∨
    ∃ k, s.pressed k = true ∧ t = (s.drawn.setV x (keyByte k)).advance := by
  unfold execLdVxK at h
  split at h
  · next hk => exact .inl ⟨hk, by simpa using h.symm⟩
  · next k ks hk =>
    refine .inr ⟨pickKey (Config.drawKey s.draws) k ks, ?_, by simpa using h.symm⟩
    rw [← State.mem_pressedKeys, hk]
    exact pickKey_mem ..

/-- A run whose first step gives a next state goes on from there. -/
theorem core_run_succ {s t : State} (h : step s = .next t) (n : Nat) :
    Sys2Proof.core.run (n + 1) s = Sys2Proof.core.run n t := by
  have h' : Sys2Proof.core.step s = .next t := h
  simp only [Host.Core.run]
  rw [h']

/-! The meanings with more than one outcome, outcome by outcome: their conditions speak of the
operand alone, so an equal operand in another state gives the same branch. -/

theorem execRet_empty {s : State} (h : s.sp = 0) : exec .ret s = .fault .stackUnderflow := by
  simp [exec, execRet, State.pop_eq_none.2 h]

theorem execRet_pops {s : State} (h : 0 < s.sp.val) : exec .ret s = .next { s with
    sp := ⟨s.sp.val - 1, by omega⟩, pc := s.stack[s.sp.val - 1] + 2 } := by
  simp only [exec, execRet, State.pop, dif_pos h, State.setPc]

theorem execCall_full {nnn : Word} {s : State} (h : s.sp = 16) :
    exec (.call nnn) s = .fault .stackOverflow := by
  simp [exec, execCall, State.push_eq_none.2 h]

theorem execCall_pushes {nnn : Word} {s : State} (h : s.sp.val < 16) :
    exec (.call nnn) s = .next { s with
      stack := s.stack.set s.sp.val s.pc h, sp := ⟨s.sp.val + 1, by omega⟩, pc := nnn } := by
  simp only [exec, execCall, State.push, dif_pos h, State.setPc]

theorem execSkp_noKey {x : Reg} {s : State} (h : keyOf (s.getV x) = none) :
    exec (.skp x) s = .fault .keyIndexOutOfRange := by simp only [exec, execSkp, h]

theorem execSkp_key {x : Reg} {s : State} {k : Key} (h : keyOf (s.getV x) = some k) :
    exec (.skp x) s = .next (s.skipIf (s.pressed k)) := by simp only [exec, execSkp, h]

theorem execSknp_noKey {x : Reg} {s : State} (h : keyOf (s.getV x) = none) :
    exec (.sknp x) s = .fault .keyIndexOutOfRange := by simp only [exec, execSknp, h]

theorem execSknp_key {x : Reg} {s : State} {k : Key} (h : keyOf (s.getV x) = some k) :
    exec (.sknp x) s = .next (s.skipIf (!s.pressed k)) := by simp only [exec, execSknp, h]

theorem execLdVxK_waits {x : Reg} {s : State} (h : s.pressedKeys = []) :
    exec (.ldVxK x) s = .next s := by simp only [exec, execLdVxK, h]

theorem execLdVxK_takes {x : Reg} {s : State} {k : Key} {ks : List Key}
    (h : s.pressedKeys = k :: ks) : exec (.ldVxK x) s =
      .next (s.drawn.setV x (keyByte (pickKey (Config.drawKey s.draws) k ks))).advance := by
  simp only [exec, execLdVxK, h]

theorem execDrw_outside {x y : Reg} {n : Nat} {s : State} (h : s.readBytes (s.effAddr 0) n = none) :
    exec (.drw x y n) s = .fault .addressOutOfRange := by simp only [exec, execDrw, h]

theorem execDrw_draws {x y : Reg} {n : Nat} {s : State} {bs : List Byte}
    (h : s.readBytes (s.effAddr 0) n = some bs) : exec (.drw x y n) s = .next
      ((s.redraw (drawRows (s.getV x).toNat (s.getV y).toNat bs (s.disp, false)).1).setV 0xF
        (collisionFlag (drawRows (s.getV x).toNat (s.getV y).toNat bs (s.disp, false)).2)).advance := by
  simp only [exec, execDrw, h]

theorem execLoadRegs_outside {x : Reg} {s : State} (h : s.readBytes (s.effAddr 0) (x.val + 1) = none) :
    exec (.loadRegs x) s = .fault .addressOutOfRange := by simp only [exec, execLoadRegs, h]

theorem execLoadRegs_loads {x : Reg} {s : State} {bs : List Byte}
    (h : s.readBytes (s.effAddr 0) (x.val + 1) = some bs) :
    exec (.loadRegs x) s = .next (s.setRegs bs).advance := by simp only [exec, execLoadRegs, h]

theorem storeAtI_outside {bs : List Byte} {s : State} (h : s.writeBytes (s.effAddr 0) bs = none) :
    storeAtI bs s = .fault .addressOutOfRange := by simp only [storeAtI, h]

theorem storeAtI_stores {bs : List Byte} {s t : State}
    (h : s.writeBytes (s.effAddr 0) bs = some t) : storeAtI bs s = .next t.advance := by
  simp only [storeAtI, h]

end Sys2Proof.Machine
end

