-- ==== Sys2Proof/Tests/Slice0.lean ====
section
/-! SUPPORT. The model's own tests. Expected values come from spec/: the encodings of 30_encoding.md
R95 and the worked vectors of 95_test_vectors.md, named in each comment. The last part shows, for
every statement with hypotheses, states and operands that meet them. -/

namespace Sys2Proof.Tests

open Sys2Proof Sys2Proof.Machine

/-! ## Helpers -/

/-- Look at one thing in the next state of an outcome. -/
def look {α : Type} (f : State → α) : Host.Outcome State Fault Refusal → Option α
  | .next t => some (f t)
  | .fault _ => none
  | .refused _ => none

/-- The fault an outcome is. -/
def stop : Host.Outcome State Fault Refusal → Option Fault
  | .next _ => none
  | .fault f => some f
  | .refused _ => none

/-- The reset state under `AddrPolicy = Wrap12`. -/
def wrapped : State := State.resetWith { Config.defaultParams with addrPolicy := .wrap12 }

/-- One step that runs the word. -/
def ran (w : Nat) (s : State) : Host.Outcome State Fault Refusal := step (s.withFetchWord 16 w)

/-- Reset with bytes from an address up. -/
def poke (a : Nat) (bs : List Byte) (s : State) : State :=
  { s with mem := Memory.writeAll s.params s.mem a bs }

/-- Reset with two registers set. -/
def regs (x : Reg) (a : Byte) (y : Reg) (b : Byte) : State := (State.reset.setV x a).setV y b

/-- The columns of a row that are 1. -/
def lit (s : State) (y : Row) : List Nat :=
  ((List.finRange 64).filter fun x => s.disp.pixel y x).map Fin.val

/-! ## WellFormed: each check refuses an ill-formed term -/

theorem test_wf_jp_refuses : (Instr.jp 0x1000).wf = false := by decide
theorem test_wf_call_refuses : (Instr.call 0x1000).wf = false := by decide
theorem test_wf_ldI_refuses : (Instr.ldI 0xF000).wf = false := by decide
theorem test_wf_jpV0_refuses : (Instr.jpV0 0xFFFF).wf = false := by decide
theorem test_wf_drw_refuses : (Instr.drw 0 0 16).wf = false := by decide
theorem test_wf_bounds_accepted :
    (Instr.jp 0xFFF).wf = true ∧ (Instr.call 0xFFF).wf = true ∧ (Instr.ldI 0xFFF).wf = true ∧
    (Instr.jpV0 0xFFF).wf = true ∧ (Instr.drw 0xF 0xF 15).wf = true := by decide

/-! ## Decode: every constructor from a word written out from the opcode map (30_encoding.md R95) -/

theorem test_decode_family0 :
    decodeWord 0b0000000011100000 = .ok .cls ∧ decodeWord 0b0000000011101110 = .ok .ret ∧
    decodeWord 0x05E0 = .ok .cls ∧ decodeWord 0x0AEE = .ok .ret := by decide
theorem test_decode_address_forms :
    decodeWord 0b0001101010111100 = .ok (.jp 0xABC) ∧
    decodeWord 0b0010101010111100 = .ok (.call 0xABC) ∧
    decodeWord 0b1010000100100011 = .ok (.ldI 0x123) ∧
    decodeWord 0b1011001100000000 = .ok (.jpV0 0x300) := by decide
theorem test_decode_immediate_forms :
    decodeWord 0b0011000101000010 = .ok (.seImm 1 0x42) ∧
    decodeWord 0b0100000101000011 = .ok (.sneImm 1 0x43) ∧
    decodeWord 0b0110101001011100 = .ok (.ldImm 0xA 0x5C) ∧
    decodeWord 0b0111001111111111 = .ok (.addImm 3 0xFF) ∧
    decodeWord 0b1100000100001111 = .ok (.rnd 1 0x0F) := by decide
theorem test_decode_register_skips :
    decodeWord 0b0101000100100000 = .ok (.seReg 1 2) ∧
    decodeWord 0b1001000100100000 = .ok (.sneReg 1 2) ∧
    decodeWord 0x5121 = .ok (.seReg 1 2) ∧ decodeWord 0x912F = .ok (.sneReg 1 2) := by decide
theorem test_decode_family8 :
    decodeWord 0b1000000100100000 = .ok (.ldReg 1 2) ∧
    decodeWord 0b1000000100100001 = .ok (.orReg 1 2) ∧
    decodeWord 0b1000000100100010 = .ok (.andReg 1 2) ∧
    decodeWord 0b1000000100100011 = .ok (.xorReg 1 2) ∧
    decodeWord 0b1000101010110100 = .ok (.addReg 0xA 0xB) ∧
    decodeWord 0b1000110010110101 = .ok (.subReg 0xC 0xB) ∧
    decodeWord 0b1000000100100110 = .ok (.shr 1 2) ∧
    decodeWord 0b1000000100100111 = .ok (.subn 1 2) ∧
    decodeWord 0b1000110011001110 = .ok (.shl 0xC 0xC) := by decide
theorem test_decode_draw : decodeWord 0b1101000100100011 = .ok (.drw 1 2 3) := by decide
theorem test_decode_familyE :
    decodeWord 0b1110000110011110 = .ok (.skp 1) ∧
    decodeWord 0b1110000110100001 = .ok (.sknp 1) := by decide
theorem test_decode_familyF :
    decodeWord 0b1111000100000111 = .ok (.ldVxDt 1) ∧
    decodeWord 0b1111001000001010 = .ok (.ldVxK 2) ∧
    decodeWord 0b1111101000010101 = .ok (.ldDtVx 0xA) ∧
    decodeWord 0b1111001100011000 = .ok (.ldStVx 3) ∧
    decodeWord 0b1111001000011110 = .ok (.addI 2) ∧
    decodeWord 0b1111000000101001 = .ok (.ldF 0) ∧
    decodeWord 0b1111000000110011 = .ok (.ldB 0) ∧
    decodeWord 0b1111111101010101 = .ok (.storeRegs 0xF) ∧
    decodeWord 0b1111001001100101 = .ok (.loadRegs 2) := by decide
/-- The invalid words of 95_test_vectors.md X-1 to X-9. -/
theorem test_decode_invalid :
    decodeWord 0x0000 = .error (.invalidOpcode 0x0000) ∧
    decodeWord 0x0123 = .error (.invalidOpcode 0x0123) ∧
    decodeWord 0x8128 = .error (.invalidOpcode 0x8128) ∧
    decodeWord 0x800F = .error (.invalidOpcode 0x800F) ∧
    decodeWord 0xE000 = .error (.invalidOpcode 0xE000) ∧
    decodeWord 0xE19F = .error (.invalidOpcode 0xE19F) ∧
    decodeWord 0xF000 = .error (.invalidOpcode 0xF000) ∧
    decodeWord 0xF0FF = .error (.invalidOpcode 0xF0FF) ∧
    decodeWord 0xFFFF = .error (.invalidOpcode 0xFFFF) := by decide
/-- No word matches two rows of the opcode map (30_encoding.md R106). -/
theorem test_rows_disjoint :
    (opcodeTable.map fun r => (r.1.toNat, r.2.toNat)).Pairwise
      (fun a b => a.2 &&& b.1 ≠ b.2 &&& a.1) := by decide
theorem test_decode_truncated : decode [0x12] = .error .truncated := by decide
theorem test_decodeTableWord : decodeTableWord 16 0x8AB4 = some (.addReg 0xA 0xB) ∧
    decodeTableWord 16 0x8AB8 = none := by decide

/-! ## One step per instruction (95_test_vectors.md part 2) -/

/-- D-1: P-00E0. -/
theorem test_cls : look (fun t => (t.disp, t.dirty, t.pc))
    (ran 0x00E0 { State.reset with
      disp := Vector.replicate 32 (Vector.replicate 64 true), dirty := false }) =
    some (Vector.replicate 32 (Vector.replicate 64 false), true, 0x202) := by decide
/-- C-1. -/
theorem test_ret : look (fun t => (t.sp, t.pc, t.stack[0]))
    (ran 0x00EE { State.reset with sp := 1, stack := State.reset.stack.set 0 0x204 }) =
    some (0, 0x206, 0x204) := by decide
/-- C-2. -/
theorem test_ret_underflow :
    stop (ran 0x00EE State.reset) = some .stackUnderflow := by decide
/-- C-3. -/
theorem test_jp : look (·.pc) (ran 0x1ABC State.reset) = some 0xABC := by decide
/-- C-7. -/
theorem test_call : look (fun t => (t.sp, t.pc, t.stack[15]))
    (ran 0x2ABC { State.reset with sp := 15 }) = some (16, 0xABC, 0x200) := by decide
/-- C-6. -/
theorem test_call_overflow :
    stop (ran 0x2ABC { State.reset with sp := 16 }) = some .stackOverflow := by decide
/-- C-8, C-9. -/
theorem test_seImm : look (·.pc) (ran 0x3142 (State.reset.setV 1 0x42)) = some 0x204 ∧
    look (·.pc) (ran 0x3143 (State.reset.setV 1 0x42)) = some 0x202 := by decide
/-- C-10, C-11. -/
theorem test_sneImm : look (·.pc) (ran 0x4142 (State.reset.setV 1 0x42)) = some 0x202 ∧
    look (·.pc) (ran 0x4143 (State.reset.setV 1 0x42)) = some 0x204 := by decide
/-- C-12, C-13. -/
theorem test_seReg : look (·.pc) (ran 0x5120 (regs 1 9 2 9)) = some 0x204 ∧
    look (·.pc) (ran 0x5120 (regs 1 9 2 0xA)) = some 0x202 := by decide
/-- C-14, C-15. -/
theorem test_sneReg : look (·.pc) (ran 0x9120 (regs 1 9 2 9)) = some 0x202 ∧
    look (·.pc) (ran 0x9120 (regs 1 9 2 0xA)) = some 0x204 := by decide
/-- A-1. -/
theorem test_ldImm : look (fun t => (t.getV 0xA, t.pc)) (ran 0x6A5C State.reset) =
    some (0x5C, 0x202) := by decide
/-- A-3. -/
theorem test_addImm : look (fun t => (t.getV 1, t.getV 0xF)) (ran 0x7101 (regs 1 0xFF 0xF 0x77)) =
    some (0x00, 0x77) := by decide
/-- A-4. -/
theorem test_addImm_to_VF : look (·.getV 0xF) (ran 0x7F01 (State.reset.setV 0xF 0xFF)) =
    some 0x00 := by decide
/-- A-5. -/
theorem test_ldReg : look (·.getV 1) (ran 0x8120 (State.reset.setV 2 0x5A)) = some 0x5A := by decide
/-- A-6. -/
theorem test_orReg : look (fun t => (t.getV 1, t.getV 0xF))
    (ran 0x8121 ((regs 1 0x0F 2 0xF0).setV 0xF 0x77)) = some (0xFF, 0x77) := by decide
/-- A-7. -/
theorem test_andReg : look (fun t => (t.getV 1, t.getV 0xF))
    (ran 0x8122 ((regs 1 0x0F 2 0xF0).setV 0xF 0x77)) = some (0x00, 0x77) := by decide
/-- A-8. -/
theorem test_xorReg : look (fun t => (t.getV 1, t.getV 0xF))
    (ran 0x8123 ((regs 1 0xFF 2 0x0F).setV 0xF 0x77)) = some (0xF0, 0x77) := by decide
/-- A-10. -/
theorem test_addReg_carry : look (fun t => (t.getV 1, t.getV 0xF)) (ran 0x8124 (regs 1 0xFF 2 0x01)) =
    some (0x00, 1) := by decide
/-- A-12. -/
theorem test_addReg_to_VF : look (·.getV 0xF) (ran 0x8F14 (regs 0xF 0x80 1 0x90)) =
    some 0x10 := by decide
/-- A-15. -/
theorem test_subReg_borrow : look (fun t => (t.getV 1, t.getV 0xF)) (ran 0x8125 (regs 1 0x03 2 0x05)) =
    some (0xFE, 0) := by decide
/-- A-16. -/
theorem test_subReg_equal : look (fun t => (t.getV 1, t.getV 0xF)) (ran 0x8125 (regs 1 0x44 2 0x44)) =
    some (0x00, 1) := by decide
/-- A-19. -/
theorem test_shr : look (fun t => (t.getV 1, t.getV 0xF, t.getV 2)) (ran 0x8126 (regs 1 0x05 2 0xAA)) =
    some (0x02, 1, 0xAA) := by decide
/-- A-21. -/
theorem test_shr_to_VF : look (·.getV 0xF) (ran 0x8F06 (State.reset.setV 0xF 0x06)) =
    some 0x03 := by decide
/-- A-22. -/
theorem test_subn : look (fun t => (t.getV 1, t.getV 0xF)) (ran 0x8127 (regs 1 0x03 2 0x05)) =
    some (0x02, 1) := by decide
/-- A-23. -/
theorem test_subn_borrow : look (fun t => (t.getV 1, t.getV 0xF)) (ran 0x8127 (regs 1 0x05 2 0x03)) =
    some (0xFE, 0) := by decide
/-- A-26. -/
theorem test_shl : look (fun t => (t.getV 1, t.getV 0xF)) (ran 0x810E (State.reset.setV 1 0x81)) =
    some (0x02, 1) := by decide
/-- A-28. -/
theorem test_shl_to_VF : look (·.getV 0xF) (ran 0x8F0E (State.reset.setV 0xF 0x81)) =
    some 0x02 := by decide
/-- M-1. -/
theorem test_ldI : look (fun t => (t.I, t.pc)) (ran 0xA123 State.reset) = some (0x123, 0x202) := by
  decide
/-- C-17. -/
theorem test_jpV0 : look (·.pc) (ran 0xBFFF (State.reset.setV 0 0xFF)) = some 0x10FE := by decide
/-- A-30, and one draw counted. -/
theorem test_rnd : look (fun t => (t.draws, t.pc)) (ran 0xC100 State.reset) = some (1, 0x202) ∧
    ∀ b : Byte, b &&& 0x00 = 0x00 := by decide
/-- D-4: the columns wrap, and row 32 is row 0. -/
theorem test_drw_wraps : look (fun t => (lit t 30, lit t 31, lit t 0, t.getV 0xF, t.dirty))
    (ran 0xD013 { poke 0x300 [0xFF, 0x81, 0xFF] (regs 0 0x3C 1 0x1E) with
      I := 0x300, dirty := false }) =
    some ([0, 1, 2, 3, 60, 61, 62, 63], [3, 60], [0, 1, 2, 3, 60, 61, 62, 63], 0, true) := by decide
/-- D-8, its third step: a partial overlap sets VF. -/
theorem test_drw_collides : look (fun t => (lit t 0, t.getV 0xF))
    (ran 0xD011 { poke 0x301 [0x60] State.reset with
      I := 0x301, disp := (Display.blank.setPixel 0 0 true).setPixel 0 1 true }) =
    some ([0, 2], 1) := by decide
/-- K-1, K-2. -/
theorem test_skp : look (·.pc) (ran 0xE19E ((State.reset.setV 1 5).hostSetKey 5 true)) = some 0x204 ∧
    look (·.pc) (ran 0xE19E (State.reset.setV 1 5)) = some 0x202 := by decide
/-- K-5. -/
theorem test_skp_no_key :
    stop (ran 0xE19E (State.reset.setV 1 0x10)) = some .keyIndexOutOfRange := by
  decide
/-- K-3, K-4. -/
theorem test_sknp : look (·.pc) (ran 0xE1A1 ((State.reset.setV 1 5).hostSetKey 5 true)) = some 0x202 ∧
    look (·.pc) (ran 0xE1A1 (State.reset.setV 1 5)) = some 0x204 := by decide
/-- K-6. -/
theorem test_sknp_no_key :
    stop (ran 0xE1A1 (State.reset.setV 1 0xFF)) = some .keyIndexOutOfRange := by
  decide
/-- T-1. -/
theorem test_ldVxDt : look (fun t => (t.getV 0, t.dt)) (ran 0xF007 (State.reset.setDt 5)) =
    some (5, 4) := by decide
/-- K-7. -/
theorem test_ldVxK_waits : look (fun t => (t.pc, t.getV 5, t.dt)) (ran 0xF50A (State.reset.setDt 3)) =
    some (0x200, 0, 2) := by decide
/-- K-8: the pressed key's index, whatever the free number is. -/
theorem test_ldVxK_takes :
    exec (.ldVxK 5) (State.reset.hostSetKey 0xB true) =
      .next (((State.reset.hostSetKey 0xB true).drawn.setV 5 0x0B).advance) := by
  rw [execLdVxK_takes (k := 0xB) (ks := []) (by decide)]
  simp [pickKey, Nat.mod_one]
  rfl
/-- T-3. -/
theorem test_ldDtVx : look (·.dt) (ran 0xF015 (State.reset.setV 0 0x3C)) = some 0x3B := by decide
/-- T-5, T-7. -/
theorem test_ldStVx : look (fun t => (t.st, t.tone)) (ran 0xF018 (State.reset.setV 0 0x01)) =
      some (0, true) ∧
    look (fun t => (t.st, t.tone)) (ran 0xF018 (State.reset.setV 0 0x05)) = some (4, false) := by decide
/-- M-2. -/
theorem test_addI : look (fun t => (t.I, t.getV 0xF))
    (ran 0xF21E { regs 2 0x10 0xF 0x77 with I := 0x300 }) = some (0x310, 0x77) := by decide
/-- M-3, M-6. -/
theorem test_addI_wraps : look (·.I) (ran 0xF01E { State.reset.setV 0 1 with I := 0xFFF }) =
      some 0x1000 ∧
    look (·.I) (ran 0xF01E { State.reset.setV 0 1 with I := 0xFFFF }) = some 0x0000 := by decide
/-- M-7, M-9. -/
theorem test_ldF : look (·.I) (ran 0xF029 (State.reset.setV 0 0x0A)) = some 0x032 ∧
    look (·.I) (ran 0xF029 (State.reset.setV 0 0xFF)) = some 0x4FB := by decide
/-- M-10. -/
theorem test_ldB : look (fun t => (t.memByte 0x300, t.memByte 0x301, t.memByte 0x302, t.I))
    (ran 0xF033 { State.reset.setV 0 0x9D with I := 0x300 }) = some (1, 5, 7, 0x300) := by decide
/-- M-14: under `Wrap12` the third digit lands over the font. -/
theorem test_ldB_wraps : look (fun t => (t.memByte 0xFFE, t.memByte 0xFFF, t.memByte 0x000))
    (ran 0xF033 { wrapped.setV 0 0x7B with I := 0xFFE }) = some (1, 2, 3) := by decide
/-- M-16: the last byte of memory is written. -/
theorem test_storeRegs : look (fun t => (t.memByte 0xFF0, t.memByte 0xFF1, t.memByte 0xFFF, t.I))
    (ran 0xFF55 { (regs 1 0x11 0xF 0xFF) with I := 0xFF0 }) = some (0x00, 0x11, 0xFF, 0xFF0) := by decide
/-- M-17. -/
theorem test_storeRegs_outside :
    stop (ran 0xFF55 { State.reset with I := 0xFF1 }) = some .addressOutOfRange := by decide
/-- M-20. -/
theorem test_loadRegs : look (fun t => (t.getV 0, t.getV 1, t.getV 2, t.getV 3, t.I))
    (ran 0xF265 { poke 0x300 [0xA0, 0xA1, 0xA2, 0xA3] (State.reset.setV 3 0x77) with I := 0x300 }) =
    some (0xA0, 0xA1, 0xA2, 0x77, 0x300) := by decide
/-- M-19: VF is loaded too. -/
theorem test_loadRegs_VF : look (·.getV 0xF)
    (ran 0xFF65 { poke 0x30F [0xAF] State.reset with I := 0x300 }) = some 0xAF := by decide

/-! ## The machinery around the instructions -/

/-- X-9: the halting step writes `terminate` alone and runs no tick. -/
theorem test_halt : look (fun t => (t.terminate, t.pc, t.dt, t.st, t.tone))
    (ran 0xFFFF { State.reset with dt := 5, st := 1 }) = some (true, 0x200, 5, 1, false) := by decide
/-- X-10. -/
theorem test_halted : look (fun t => (t.getV 0, t.dt, t.pc, t.tone))
    (step { poke 0x200 [0x60, 0x01] State.reset with terminate := true, dt := 5 }) =
    some (0, 5, 0x200, false) := by decide
/-- X-15, X-16. -/
theorem test_fetch_at_the_top :
    stop (step { State.reset with pc := 0xFFF }) = some .addressOutOfRange ∧
    look (fun t => (t.getV 0, t.pc))
      (step { poke 0xFFF [0x60] (poke 0x000 [0xF0] wrapped) with pc := 0xFFF }) =
    some (0xF0, 0x1000 + 1) := by decide
/-- T-10, its second step. -/
theorem test_tone : look (fun t => (t.st, t.tone)) (ran 0x6000 { State.reset with st := 1 }) =
    some (0, true) := by decide
/-- R-2: after reset with nothing loaded the first step halts. -/
theorem test_first_step : look (fun t => (t.terminate, t.pc)) (step State.reset) =
    some (true, 0x200) := by decide
/-- R-6: a load restarts nothing. -/
theorem test_load_while_halted : look (fun t => (t.memByte 0x200, t.memByte 0x201, t.terminate, t.pc))
    (runCommand (.load [0x12, 0x00]) { State.reset with terminate := true, pc := 0x204 }) =
    some (0x12, 0x00, true, 0x204) := by decide
/-- A write of what an unlisted address reads as removes the entry. -/
theorem test_memory_canonical : (poke 0x300 [0x00] (poke 0x300 [0x55] State.reset)).mem = [] ∧
    (poke 0x000 [0xF0] (poke 0x000 [0x03] State.reset)).mem = [] := by decide

/-! ## Witnesses: every statement with hypotheses has states and operands that meet them, clause by
clause, at the boundary values -/

/-- A look that finds something shows a next state. -/
theorem next_of_look {α : Type} {f : State → α} {a : α} {o : Host.Outcome State Fault Refusal}
    (h : look f o = some a) : ∃ t, o = .next t ∧ f t = a := by
  cases o with
  | next t => exact ⟨t, rfl, by simpa [look] using h⟩
  | fault _ => simp [look] at h
  | refused _ => simp [look] at h

/-- A stop that finds a fault shows it. -/
theorem fault_of_stop {e : Fault} {o : Host.Outcome State Fault Refusal} (h : stop o = some e) :
    o = .fault e := by
  cases o <;> simp [stop] at h
  rw [h]

/-- Reset with the word placed at 0x200. -/
def holding (w : Word) : State := poke 0x200 [highByte w, lowByte w] State.reset

theorem witness_DecodeOfEncodeIsIdentity :
    (Instr.jp 0xFFF).wf = true ∧ (Instr.drw 0xF 0 15).wf = true := by decide
theorem witness_EncodeOfDecodeIsCanonicalSpelling :
    (decodeWord 0x0FEE = .ok .ret ∧ (0x0FEE : Word).toNat / 0x1000 = 0x0) ∧
    (decodeWord 0x5FFF = .ok (.seReg 0xF 0xF) ∧ (0x5FFF : Word).toNat / 0x1000 = 0x5) ∧
    (decodeWord 0x900F = .ok (.sneReg 0 0) ∧ (0x900F : Word).toNat / 0x1000 = 0x9) ∧
    (decodeWord 0xFF65 = .ok (.loadRegs 0xF) ∧ (0xFF65 : Word).toNat / 0x1000 = 0xF) := by decide
/-- Each family, at its last valid value and at an invalid one. -/
theorem witness_SubOpcodeFamiliesDecodeAsListed :
    ∀ op ∈ [0x8FFE, 0x8FFF, 0xE0A1, 0xE0FF, 0xFF65, 0xF000], ∃ x y : Reg,
      x.val = op / 0x100 % 0x10 ∧ y.val = op / 0x10 % 0x10 ∧ op < 0x10000 ∧
      (op / 0x1000 = 0x8 ∨ op / 0x1000 = 0xE ∨ op / 0x1000 = 0xF) := by decide
theorem witness_PlainFamiliesDecodeAsListed :
    ∀ f ∈ [0x0, 0x1, 0x2, 0x3, 0x4, 0x5, 0x6, 0x7, 0x9, 0xA, 0xB, 0xC, 0xD],
      (BitVec.ofNat 16 (f * 0x1000 + 0xFFF)).toNat / 0x1000 = f ∧
      (0xFFF : Word).toNat = (f * 0x1000 + 0xFFF) % 0x1000 ∧
      (0xFF : Byte).toNat = (f * 0x1000 + 0xFFF) % 0x100 ∧
      (0xF : Reg).val = (f * 0x1000 + 0xFFF) / 0x100 % 0x10 := by decide
theorem witness_EveryWordMatchesOneRowOrIsInvalid :
    decodeWord 0x8AB4 = .ok (.addReg 0xA 0xB) ∧
    decodeWord 0x8AB8 = .error (.invalidOpcode 0x8AB8) := by decide
theorem witness_StepRunsDecodedInstruction :
    ((holding 0x6A5C).terminate = false ∧ (holding 0x6A5C).fetchWord = some 0x6A5C ∧
      decodeWord 0x6A5C = .ok (.ldImm 0xA 0x5C) ∧
      ∃ t, exec (.ldImm 0xA 0x5C) (holding 0x6A5C) = .next t) ∧
    ((holding 0x00EE).terminate = false ∧ (holding 0x00EE).fetchWord = some 0x00EE ∧
      decodeWord 0x00EE = .ok .ret ∧ exec .ret (holding 0x00EE) = .fault .stackUnderflow) :=
  ⟨⟨by decide, by decide, by decide, _, rfl⟩, by decide, by decide, by decide,
    fault_of_stop (by decide)⟩
theorem witness_HaltedStepChangesNothing :
    { State.reset with terminate := true }.terminate = true := by decide
theorem witness_InvalidWordHaltsAndChangesNothingElse :
    (holding 0xFFFF).terminate = false ∧ (holding 0xFFFF).fetchWord = some 0xFFFF ∧
    decodeWord 0xFFFF = .error (.invalidOpcode 0xFFFF) := by decide
/-- The last `pc` with both bytes inside, the first without, and the wraps of `Wrap12`. -/
theorem witness_FetchIsBigEndianAtPc :
    ((0xFFE : Word).toNat < 0xFFF ∧ { State.reset with pc := 0xFFE }.fetchWord = some 0) ∧
    (State.reset.params.addrPolicy = .fault ∧ 0xFFF ≤ (0xFFF : Word).toNat ∧
      { State.reset with pc := 0xFFF }.terminate = false) ∧
    (wrapped.params.addrPolicy = .wrap12 ∧ { wrapped with pc := 0xFFF }.fetchWord = some 0x00F0 ∧
      { wrapped with pc := 0xFFFF }.fetchWord = some 0x00F0) := by decide
/-- A step that finds the CORE halted, one that halts it, one that executes. -/
theorem witness_ToneExactlyWhenSoundTimerRunsOut :
    (∃ t, step { State.reset with terminate := true, st := 1 } = .next t ∧ t.tone = false) ∧
    (∃ t, step { State.reset with st := 1 } = .next t ∧ t.tone = false) ∧
    (∃ t, step { holding 0x6000 with st := 1 } = .next t ∧ t.tone = true) ∧
    (∃ t, step { holding 0x6000 with st := 2 } = .next t ∧ t.tone = false) :=
  ⟨next_of_look (by decide), next_of_look (by decide), next_of_look (by decide),
    next_of_look (by decide)⟩
/-- The self-jump at 0x200, its timers running, and the one at the last address a fetch reads. -/
theorem witness_SelfJumpReachesIdleFixedPoint :
    { holding 0x1200 with dt := 2, st := 3 }.atSelfJump = true ∧
    { poke 0xFFE [0x1F, 0xFE] State.reset with pc := 0xFFE }.atSelfJump = true := by decide
theorem witness_StepKeepsMemoryCanonical :
    { holding 0xFF55 with I := 0xFF0 }.wf ∧
    ∃ t, step { holding 0xFF55 with I := 0xFF0 } = .next t ∧ t.pc = 0x202 :=
  ⟨by decide, next_of_look (by decide)⟩
theorem witness_HostCommandsKeepMemoryCanonical :
    ∀ c ∈ [Command.reset, .load [0x12], .step, .setKey 0xF true, .clearDirty],
      (holding 0x6A5C).wf ∧ ∃ t, runCommand c (holding 0x6A5C) = .next t ∧ t.pc.toNat < 0x203 := by
  intro c hc
  simp only [List.mem_cons, List.not_mem_nil, or_false] at hc
  refine ⟨by decide, ?_⟩
  rcases hc with rfl | rfl | rfl | rfl | rfl <;>
    exact (next_of_look (f := fun t => decide (t.pc.toNat < 0x203)) (a := true) (by decide)).imp
      fun t h => ⟨h.1, of_decide_eq_true h.2⟩
theorem witness_InstructionsWriteOnlyNamedState :
    ∃ t, exec (.storeRegs 0xF) { State.reset with I := 0xFF0 } = .next t ∧ t.pc = 0x202 :=
  next_of_look (by decide)
/-- A register outside both columns, of a form that completes and of one that faults. -/
theorem witness_RegistersReadAndWrittenFollowTable :
    ((Instr.addReg 1 2).writesReg 3 = false ∧ (Instr.addReg 1 2).readsReg 0xF = false ∧
      ∃ t, exec (.addReg 1 2) State.reset = .next t) ∧
    ((Instr.storeRegs 0xE).readsReg 0xF = false ∧
      exec (.storeRegs 0xE) { State.reset with I := 0xFFF } = .fault .addressOutOfRange) :=
  ⟨⟨by decide, by decide, _, rfl⟩, by decide, fault_of_stop (by decide)⟩
theorem witness_KeysWrittenByHostReadByThreeForms :
    (∃ t, step (holding 0x6A5C) = .next t ∧ t.pc = 0x202) ∧
    (∀ x, Instr.cls ≠ .skp x ∧ Instr.cls ≠ .sknp x ∧ Instr.cls ≠ .ldVxK x) ∧
    (((State.reset.setV 1 0xF).getV 1).toNat = (0xF : Key).val) ∧
    (∀ j, State.reset.pressed j = false) :=
  ⟨next_of_look (by decide), by decide, by decide, by decide⟩
theorem witness_SoundTimerReadByNoInstruction :
    (∃ t, exec .cls State.reset = .next t) ∧ ∀ x, Instr.cls ≠ .ldStVx x := ⟨⟨_, rfl⟩, by decide⟩
theorem witness_DelayTimerReadByOneForm :
    (∃ t, exec .cls State.reset = .next t) ∧ ∀ x, Instr.cls ≠ .ldDtVx x ∧ Instr.cls ≠ .ldVxDt x :=
  ⟨⟨_, rfl⟩, by decide⟩
theorem witness_DirtySetByDrawingClearedByHostOnly :
    (∃ t, exec .cls State.reset = .next t) ∧
    (∃ t, exec (.drw 0 0 15) State.reset = .next t ∧ t.pc = 0x202) ∧
    ((∃ t, exec (.jp 0x300) State.reset = .next t) ∧ Instr.jp 0x300 ≠ .cls ∧
      ∀ x y n, Instr.jp 0x300 ≠ .drw x y n) ∧
    ((∃ t, step (holding 0x6A5C) = .next t ∧ t.pc = 0x202) ∧ (holding 0x6A5C).dirty = true) :=
  ⟨⟨_, rfl⟩, next_of_look (by decide), ⟨⟨_, rfl⟩, by decide, fun _ _ _ => nofun⟩,
    next_of_look (by decide), by decide⟩
theorem witness_TerminateSetExactlyByInvalidWord :
    (∃ t, step { State.reset with terminate := true } = .next t ∧ t.terminate = true) ∧
    (∃ t, step (holding 0x0123) = .next t ∧ t.terminate = true) ∧
    (∃ t, step (holding 0x6A5C) = .next t ∧ t.terminate = false) :=
  ⟨next_of_look (by decide), next_of_look (by decide), next_of_look (by decide)⟩
theorem witness_OtherFormsDoNotReachMemory :
    (∀ x y n, Instr.ret ≠ .drw x y n) ∧
    ∀ x, Instr.ret ≠ .ldB x ∧ Instr.ret ≠ .storeRegs x ∧ Instr.ret ≠ .loadRegs x :=
  ⟨fun _ _ _ => nofun, by decide⟩
/-- Each kind of fault, and a form one short of it. -/
theorem witness_ModelFaultsExactlyWhereListed :
    Instr.ret.faultOf State.reset = some .stackUnderflow ∧
    (Instr.call 0x300).faultOf { State.reset with sp := 16 } = some .stackOverflow ∧
    (Instr.call 0x300).faultOf { State.reset with sp := 15 } = none ∧
    (Instr.drw 0 0 1).faultOf { State.reset with I := 0x1000 } = some .addressOutOfRange ∧
    (Instr.drw 0 0 1).faultOf { State.reset with I := 0xFFF } = none ∧
    (Instr.skp 1).faultOf (State.reset.setV 1 0x10) = some .keyIndexOutOfRange ∧
    (Instr.skp 1).faultOf (State.reset.setV 1 0x0F) = none := by decide
theorem witness_Wrap12NeverFaultsOnAddress : wrapped.params.addrPolicy = .wrap12 := by decide
/-- The last byte under `Fault`, and the first beyond it under `Wrap12`. -/
theorem witness_ByteWriteChangesOneByte :
    (∃ t, State.reset.writeByte 0xFFF 0x55 = some t) ∧ ∃ t, wrapped.writeByte 0x1000 0x55 = some t :=
  ⟨⟨_, rfl⟩, _, rfl⟩
theorem witness_PhysResolvesByPolicy :
    State.reset.readByte 0xFFF = some 0 ∧
    (0xFFF < 0x1000 ∧ State.reset.params.addrPolicy = .fault) ∧
    (0xFFF < 0x1000 ∧ wrapped.params.addrPolicy = .wrap12) := by decide
/-- The highest `pc` the statement speaks of, and the longest store. -/
theorem witness_StoredBytesAreFetchedNext :
    (1 ≤ (1 : Reg).val ∧ (0xFFE : Word) = 0xFFC + 2 ∧ (0xFFC : Word).toNat < 0xFFD ∧
      ∃ t, exec (.storeRegs 1) { State.reset with pc := 0xFFC, I := 0xFFE } = .next t ∧
        t.pc = 0xFFE) ∧
    (1 ≤ (0xF : Reg).val ∧ (0x202 : Word) = State.reset.pc + 2 ∧
      ∃ t, exec (.storeRegs 0xF) { State.reset with I := 0x202 } = .next t ∧ t.pc = 0x202) :=
  ⟨⟨by decide, by decide, by decide, next_of_look (by decide)⟩, by decide, by decide,
    next_of_look (by decide)⟩
theorem witness_IndexedJumpAddsV0 : (Instr.jpV0 0xFFF).wf = true := by decide
theorem witness_CallPushesItsOwnAddress :
    { State.reset with sp := 15 }.sp.val < 16 ∧ { State.reset with sp := 16 }.sp = 16 := by decide
theorem witness_ReturnPopsAndResumesAfterCall :
    0 < { State.reset with sp := 1 }.sp.val ∧ State.reset.sp = 0 := by decide
/-- P-CALLRET at depth 15: 2204 at 0x200 and 00EE at 0x204. -/
theorem witness_CallThenReturnResumesAfterCall :
    ∃ s t : State, s.terminate = false ∧ s.sp.val = 15 ∧ s.fetchWord = some 0x2204 ∧
      decodeWord 0x2204 = .ok (.call 0x204) ∧ step s = .next t ∧ t.fetchWord = some 0x00EE ∧
      decodeWord 0x00EE = .ok .ret := by
  refine ⟨{ poke 0x200 [0x22, 0x04, 0x00, 0x00, 0x00, 0xEE] State.reset with sp := 15 }, ?_⟩
  obtain ⟨t, h1, h2⟩ := next_of_look (f := State.fetchWord) (a := some 0x00EE)
    (o := step { poke 0x200 [0x22, 0x04, 0x00, 0x00, 0x00, 0xEE] State.reset with sp := 15 })
    (by decide)
  exact ⟨t, by decide, by decide, by decide, by decide, h1, h2, by decide⟩
theorem witness_ImmediateSkips : (State.reset.setV 3 0xFF).getV 3 = 0xFF ∧
    (State.reset.setV 3 0xFF).getV 3 ≠ 0xFE := by decide
theorem witness_RegisterSkips : (regs 1 9 2 9).getV 1 = (regs 1 9 2 9).getV 2 ∧
    (regs 1 9 2 0xA).getV 1 ≠ (regs 1 9 2 0xA).getV 2 := by decide
/-- The last `I` FX33 runs at, the first it faults at, and the wrap. -/
theorem witness_DecimalDigitsStored :
    (0xFFD : Word).toNat + 2 ≤ 0xFFF ∧
    (State.reset.params.addrPolicy = .fault ∧ 0xFFF < (0xFFE : Word).toNat + 2) ∧
    wrapped.params.addrPolicy = .wrap12 ∧
    phys .wrap12 ({ wrapped with I := 0xFFE }.effAddr 2) = some 0x000 ∧
    phys .fault ({ State.reset with I := 0xFFD }.effAddr 2) = some 0xFFF := by decide
theorem witness_RegistersStored :
    (0xFF0 : Word).toNat + (0xF : Reg).val ≤ 0xFFF ∧
    (State.reset.params.addrPolicy = .fault ∧ 0xFFF < (0xFF1 : Word).toNat + (0xF : Reg).val) ∧
    phys .fault ({ State.reset with I := 0xFF0 }.effAddr (0xF : Reg).val) = some 0xFFF := by decide
theorem witness_RegistersLoaded :
    (0xFFF : Word).toNat + (0x0 : Reg).val ≤ 0xFFF ∧
    (State.reset.params.addrPolicy = .fault ∧ 0xFFF < (0xFFF : Word).toNat + (0x1 : Reg).val) := by
  decide
/-- The last `I` a 15-row sprite is readable at, the first it is not, and `N = 0` above both. -/
theorem witness_DrawTogglesSpriteAndReportsCollision :
    (Instr.drw 0 1 15).wf = true ∧ { State.reset with I := 0xFF1 }.outOfRange 15 = false ∧
    { State.reset with I := 0xFF2 }.outOfRange 15 = true ∧
    { State.reset with I := 0xFFFF }.outOfRange 0 = false ∧
    { State.reset with I := 0xFF1 }.readByte ({ State.reset with I := 0xFF1 }.effAddr 14) =
      some 0 := by decide
/-- Coordinates 60 and 30 against 124 and 62. -/
theorem witness_DrawCoordinatesAreToroidal :
    SameBut [.V] (regs 0 0x3C 1 0x1E) (regs 0 0x7C 1 0x3E) ∧
    ((regs 0 0x7C 1 0x3E).getV 0).toNat % 64 = ((regs 0 0x3C 1 0x1E).getV 0).toNat % 64 ∧
    ((regs 0 0x7C 1 0x3E).getV 1).toNat % 32 = ((regs 0 0x3C 1 0x1E).getV 1).toNat % 32 ∧
    (∃ t, exec (.drw 0 1 2) (regs 0 0x3C 1 0x1E) = .next t ∧ t.pc = 0x202) ∧
    exec (.drw 0 1 2) { regs 0 0x3C 1 0x1E with I := 0xFFF } = .fault .addressOutOfRange := by
  refine ⟨fun p hp => ?_, by decide, by decide, next_of_look (by decide), fault_of_stop (by decide)⟩
  cases p <;> first | rfl | (intro q _; rfl) | exact absurd hp (by decide)
theorem witness_KeySkips :
    ((State.reset.setV 1 0x0F).getV 1).toNat = (0xF : Key).val ∧
    0xF < ((State.reset.setV 1 0x10).getV 1).toNat := by decide
theorem witness_KeyWaitPollsUntilPressed :
    ((∀ k, (holding 0xF50A).pressed k = false) ∧ (holding 0xF50A).terminate = false ∧
      (holding 0xF50A).fetchWord = some 0xF50A ∧ decodeWord 0xF50A = .ok (.ldVxK 5)) ∧
    ((State.reset.hostSetKey 0xF true).pressed 0xF = true ∧
      ∀ i, (State.reset.hostSetKey 0xF true).pressed i = true → i = 0xF) := by decide
/-- The longest load and the first too long. -/
theorem witness_LoadCopiesProgramBytes :
    (List.replicate 3584 (0xFF : Byte)).length ≤ 3584 ∧
    3584 < (List.replicate 3585 (0xFF : Byte)).length := by
  simp only [List.length_replicate]
  omega
theorem witness_ResetIsRequiredFirst : Command.step ≠ .reset := by decide
theorem witness_LoadedProgramIsFetchedFirst :
    ([0x12, 0x00] : List Byte).length ≤ 3584 ∧ 2 ≤ ([0x12, 0x00] : List Byte).length := by decide

end Sys2Proof.Tests
end

/-! Frames and noninterference of the parts the host and the timers share with the CORE: the two
timers, the key levels and the dirty flag (10_state.md R38, R39, R41, R42). -/

namespace Sys2Proof.Machine

/-! ## The frame of a state update

One lemma per update a meaning performs, so that the frame of an instruction is a chain of these
by `SameBut.trans`. -/

theorem SameBut.refl (s : State) : SameBut [] s s := by
  intro p _
  cases p with
  | mem => exact fun _ _ => rfl
  | V => exact fun _ => rfl
  | _ => rfl

theorem SameBut.trans {a b : List Part} {s t u : State} (hst : SameBut a s t)
    (htu : SameBut b t u) : SameBut (a ++ b) s u := by
  intro p hp
  have hs := hst p fun h => hp (List.mem_append_left b h)
  have ht := htu p fun h => hp (List.mem_append_right a h)
  cases p with
  | mem => exact fun q hq => (ht q hq).trans (hs q hq)
  | V => exact fun r => (ht r).trans (hs r)
  | _ => exact Eq.trans ht hs

theorem SameBut.mono {a b : List Part} {s t : State} (h : SameBut a s t) (hab : a ⊆ b) :
    SameBut b s t := fun p hp => h p fun ha => hp (hab ha)

section

variable (s : State)

theorem sameBut_mem (m : Memory) : SameBut [.mem] s { s with mem := m } := by
  intro p hp
  cases p <;> simp_all [Part.same, State.getV]

theorem sameBut_V (v : Vector Byte 16) : SameBut [.V] s { s with V := v } := by
  intro p hp
  cases p <;> simp_all [Part.same, State.memByte]

theorem sameBut_pc (a : Word) : SameBut [.pc] s { s with pc := a } := by
  intro p hp
  cases p <;> simp_all [Part.same, State.memByte, State.getV]

theorem sameBut_sp (d : Fin 17) : SameBut [.sp] s { s with sp := d } := by
  intro p hp
  cases p <;> simp_all [Part.same, State.memByte, State.getV]

theorem sameBut_stack (k : Vector Word 16) : SameBut [.stack] s { s with stack := k } := by
  intro p hp
  cases p <;> simp_all [Part.same, State.memByte, State.getV]

theorem sameBut_tone (b : Bool) : SameBut [.tone] s { s with tone := b } := by
  intro p hp
  cases p <;> simp_all [Part.same, State.memByte, State.getV]

theorem setI_sameBut (a : Word) : SameBut [.I] s (s.setI a) := by
  intro p hp
  cases p <;> simp_all [Part.same]

theorem setDt_sameBut (b : Byte) : SameBut [.dt] s (s.setDt b) := by
  intro p hp
  cases p <;> simp_all [Part.same]

theorem setSt_sameBut (b : Byte) : SameBut [.st] s (s.setSt b) := by
  intro p hp
  cases p <;> simp_all [Part.same]

theorem drawn_sameBut : SameBut [.draws] s s.drawn := by
  intro p hp
  cases p <;> simp_all [Part.same]

theorem redraw_sameBut (d : Display) : SameBut [.disp, .dirty] s (s.redraw d) := by
  intro p hp
  cases p <;> simp_all [Part.same]

theorem hostSetKey_sameBut (k : Key) (l : Bool) : SameBut [.keys] s (s.hostSetKey k l) := by
  intro p hp
  cases p <;> simp_all [Part.same]

theorem hostClearDirty_sameBut : SameBut [.dirty] s s.hostClearDirty := by
  intro p hp
  cases p <;> simp_all [Part.same]

theorem setV_sameBut (x : Reg) (b : Byte) : SameBut [.V] s (s.setV x b) := sameBut_V s _

theorem advance_sameBut : SameBut [.pc] s s.advance := sameBut_pc s _

end

section

variable {s : State}

/-! ## The frame of an instruction -/

theorem storeAtI_sameBut {bs : List Byte} {t : State} (h : storeAtI bs s = .next t) :
    SameBut [.mem, .pc] s t := by
  obtain ⟨u, hu, rfl⟩ := storeAtI_next h
  obtain ⟨⟨m, rfl⟩, -, -⟩ := State.writeBytes_frame bs hu
  exact (sameBut_mem s m).trans (advance_sameBut _)

/-- The updates each meaning performs, one after the other. -/
theorem exec_sameBut_writes {i : Instr} {t : State} (h : exec i s = .next t) :
    SameBut i.writes s t := by
  cases i with
  | jp | jpV0 | seImm | sneImm | seReg | sneReg =>
    cases h
    exact sameBut_pc s _
  | skp x =>
    obtain ⟨k, -, rfl⟩ := execSkp_next h
    exact sameBut_pc s _
  | sknp x =>
    obtain ⟨k, -, rfl⟩ := execSknp_next h
    exact sameBut_pc s _
  | ldImm | addImm | ldReg | orReg | andReg | xorReg | addReg | subReg | shr | subn | shl
  | ldVxDt =>
    cases h
    exact (sameBut_V s _).trans (advance_sameBut _)
  | loadRegs x =>
    obtain ⟨bs, -, rfl⟩ := execLoadRegs_next h
    exact (sameBut_V s _).trans (advance_sameBut _)
  | rnd x nn =>
    cases h
    exact ((drawn_sameBut s).trans ((setV_sameBut _ _ _).trans (advance_sameBut _))).mono
      (by simp [Instr.writes])
  | ldVxK x =>
    obtain ⟨-, rfl⟩ | ⟨k, -, rfl⟩ := execLdVxK_next h
    · exact (SameBut.refl t).mono (List.nil_subset _)
    · exact ((drawn_sameBut s).trans ((setV_sameBut _ _ _).trans (advance_sameBut _))).mono
        (by simp [Instr.writes])
  | ldI | addI | ldF =>
    cases h
    exact (setI_sameBut s _).trans (advance_sameBut _)
  | ldDtVx =>
    cases h
    exact (setDt_sameBut s _).trans (advance_sameBut _)
  | ldStVx =>
    cases h
    exact (setSt_sameBut s _).trans (advance_sameBut _)
  | cls =>
    cases h
    exact (redraw_sameBut s _).trans (advance_sameBut _)
  | drw x y n =>
    obtain ⟨bs, -, rfl⟩ := execDrw_next h
    exact ((redraw_sameBut s _).trans ((setV_sameBut _ _ _).trans (advance_sameBut _))).mono
      (by simp [Instr.writes])
  | ret =>
    obtain ⟨hs, rfl⟩ := execRet_next h
    exact (sameBut_sp s ⟨s.sp.val - 1, by omega⟩).trans (sameBut_pc _ _)
  | call nnn =>
    obtain ⟨hs, rfl⟩ := execCall_next h
    exact (sameBut_stack s (s.stack.set s.sp.val s.pc hs)).trans
      ((sameBut_sp _ ⟨s.sp.val + 1, by omega⟩).trans (sameBut_pc _ _))
  | ldB | storeRegs => exact storeAtI_sameBut h

/-! ## Which forms write the timers, the key levels and the dirty flag -/

theorem keys_notMem_writes (i : Instr) : Part.keys ∉ i.writes := by
  cases i <;> simp [Instr.writes]

theorem dt_mem_writes_iff {i : Instr} : Part.dt ∈ i.writes ↔ ∃ x, i = .ldDtVx x := by
  cases i <;> simp [Instr.writes]

theorem st_mem_writes_iff {i : Instr} : Part.st ∈ i.writes ↔ ∃ x, i = .ldStVx x := by
  cases i <;> simp [Instr.writes]

theorem dirty_mem_writes_iff {i : Instr} :
    Part.dirty ∈ i.writes ↔ i = .cls ∨ ∃ x y n, i = .drw x y n := by
  cases i <;> simp [Instr.writes]

/-! ## Noninterference

Other values are put over some of these parts before an instruction runs; they come out over the
same parts after it, save those the instruction writes. -/

/-- Values to put over the timers, the key levels and the dirty flag; `none` leaves the part. -/
structure Overlay where
  dt : Option Byte := none
  st : Option Byte := none
  keys : Option (Vector Bool 16) := none
  dirty : Option Bool := none

/-- The state with the values of `o` in place. -/
def State.overlay (s : State) (o : Overlay) : State :=
  { s with
    dt := o.dt.getD s.dt, st := o.st.getD s.st,
    keys := o.keys.getD s.keys, dirty := o.dirty.getD s.dirty }

/-- The values of `o` that writes to the listed parts do not replace. -/
def Overlay.outside (o : Overlay) (written : List Part) : Overlay where
  dt := if .dt ∈ written then none else o.dt
  st := if .st ∈ written then none else o.st
  keys := if .keys ∈ written then none else o.keys
  dirty := if .dirty ∈ written then none else o.dirty

theorem State.overlay_readBytes (o : Overlay) (a n : Nat) :
    (s.overlay o).readBytes a n = s.readBytes a n :=
  State.readBytes_congr (s := s) (t := s.overlay o) rfl rfl n a

theorem State.overlay_dt {o : Overlay} (h : o.dt = none) : (s.overlay o).dt = s.dt := by
  simp only [State.overlay, h, Option.getD_none]

theorem State.overlay_pressed {o : Overlay} (h : o.keys = none) :
    (s.overlay o).pressed = s.pressed := by
  funext k
  simp only [State.overlay, State.pressed, h, Option.getD_none]

theorem State.overlay_pressedKeys {o : Overlay} (h : o.keys = none) :
    (s.overlay o).pressedKeys = s.pressedKeys := by
  simp only [State.pressedKeys, State.overlay_pressed h]

theorem exec_ldVxDt (x : Reg) : exec (.ldVxDt x) s = .next (s.setV x s.dt).advance := rfl

theorem storeAtI_overlay (o : Overlay) (bs : List Byte) :
    storeAtI bs (s.overlay o) = mapNext (·.overlay o) (storeAtI bs s) := by
  have hw := State.writeBytes_congr (s := s) (t := s.overlay o) bs (s.effAddr 0) rfl rfl
  cases hs : s.writeBytes (s.effAddr 0) bs with
  | none =>
    rw [hs] at hw
    rw [storeAtI_outside hs, storeAtI_outside hw]
    rfl
  | some u =>
    rw [hs] at hw
    obtain ⟨⟨m, rfl⟩, -, -⟩ := State.writeBytes_frame bs hs
    rw [storeAtI_stores hs, storeAtI_stores hw]
    rfl

/-- Only FX07 sees the delay timer, only EX9E, EXA1 and FX0A see the key levels, and no form sees
the sound timer or the dirty flag: the overlaid state takes the same branch of the meaning, to the
same outcome under what is left of the overlay. -/
theorem exec_overlay {i : Instr} {o : Overlay}
    (hdt : (∀ x, i ≠ .ldVxDt x) ∨ o.dt = none)
    (hkeys : (∀ x, i ≠ .skp x ∧ i ≠ .sknp x ∧ i ≠ .ldVxK x) ∨ o.keys = none) :
    exec i (s.overlay o) = mapNext (·.overlay (o.outside i.writes)) (exec i s) := by
  cases i with
  | ret =>
    rcases Nat.eq_zero_or_pos s.sp.val with h | h
    · rw [execRet_empty (Fin.ext h), execRet_empty (s := s.overlay o) (Fin.ext h)]
      rfl
    · rw [execRet_pops h, execRet_pops (s := s.overlay o) h]
      rfl
  | call nnn =>
    by_cases h : s.sp = Fin.last 16
    · rw [execCall_full h, execCall_full (s := s.overlay o) h]
      rfl
    · have hlt : s.sp.val < 16 := Fin.val_lt_last h
      rw [execCall_pushes hlt, execCall_pushes (s := s.overlay o) hlt]
      rfl
  | drw x y n =>
    have ho := State.overlay_readBytes (s := s) o (s.effAddr 0) n
    cases h : s.readBytes (s.effAddr 0) n with
    | none =>
      rw [execDrw_outside h, execDrw_outside (s := s.overlay o) (ho.trans h)]
      rfl
    | some bs =>
      rw [execDrw_draws h, execDrw_draws (s := s.overlay o) (ho.trans h)]
      rfl
  | loadRegs x =>
    have ho := State.overlay_readBytes (s := s) o (s.effAddr 0) (x.val + 1)
    cases h : s.readBytes (s.effAddr 0) (x.val + 1) with
    | none =>
      rw [execLoadRegs_outside h, execLoadRegs_outside (s := s.overlay o) (ho.trans h)]
      rfl
    | some bs =>
      rw [execLoadRegs_loads h, execLoadRegs_loads (s := s.overlay o) (ho.trans h)]
      rfl
  | ldB x => exact storeAtI_overlay o _
  | storeRegs x => exact storeAtI_overlay o _
  | skp x =>
    have hk : o.keys = none := hkeys.resolve_left fun h => (h x).1 rfl
    cases h : keyOf (s.getV x) with
    | none =>
      rw [execSkp_noKey h, execSkp_noKey (s := s.overlay o) h]
      rfl
    | some k =>
      rw [execSkp_key h, execSkp_key (s := s.overlay o) h, State.overlay_pressed hk]
      rfl
  | sknp x =>
    have hk : o.keys = none := hkeys.resolve_left fun h => (h x).2.1 rfl
    cases h : keyOf (s.getV x) with
    | none =>
      rw [execSknp_noKey h, execSknp_noKey (s := s.overlay o) h]
      rfl
    | some k =>
      rw [execSknp_key h, execSknp_key (s := s.overlay o) h, State.overlay_pressed hk]
      rfl
  | ldVxK x =>
    have hk : o.keys = none := hkeys.resolve_left fun h => (h x).2.2 rfl
    have ho := State.overlay_pressedKeys (s := s) hk
    cases h : s.pressedKeys with
    | nil =>
      rw [execLdVxK_waits h, execLdVxK_waits (ho.trans h)]
      rfl
    | cons k ks =>
      rw [execLdVxK_takes h, execLdVxK_takes (ho.trans h)]
      rfl
  | ldVxDt x =>
    have hd : o.dt = none := hdt.resolve_left fun h => h x rfl
    rw [exec_ldVxDt, exec_ldVxDt, State.overlay_dt hd]
    rfl
  | _ => rfl

/-! ## What a step does to the key levels and the dirty flag -/

theorem step_keys {t : State} (h : step s = .next t) : t.keys = s.keys := by
  obtain ⟨-, rfl⟩ | ⟨-, -, -, -, -, rfl⟩ | ⟨-, -, i, u, -, -, hx, rfl⟩ := step_cases h
  · rfl
  · rfl
  · exact exec_sameBut_writes hx .keys (keys_notMem_writes i)

theorem execCls_sets_dirty {t : State} (h : exec .cls s = .next t) : t.dirty = true := by
  cases h
  rfl

theorem execDrw_sets_dirty {x y : Reg} {n : Nat} {t : State} (h : exec (.drw x y n) s = .next t) :
    t.dirty = true := by
  obtain ⟨bs, -, rfl⟩ := execDrw_next h
  rfl

theorem exec_keeps_dirty_set {i : Instr} {t : State} (h : exec i s = .next t)
    (hd : s.dirty = true) : t.dirty = true := by
  by_cases hw : Part.dirty ∈ i.writes
  · obtain rfl | ⟨x, y, n, rfl⟩ := dirty_mem_writes_iff.1 hw
    · exact execCls_sets_dirty h
    · exact execDrw_sets_dirty h
  · exact (exec_sameBut_writes h .dirty hw).trans hd

theorem step_keeps_dirty_set {t : State} (h : step s = .next t) (hd : s.dirty = true) :
    t.dirty = true := by
  obtain ⟨-, rfl⟩ | ⟨-, -, -, -, -, rfl⟩ | ⟨-, -, i, u, -, -, hx, rfl⟩ := step_cases h
  · exact hd
  · exact hd
  · rw [State.tick_dirty]
    exact exec_keeps_dirty_set hx hd

/-! ## The timers' count and the keys the host sets -/

theorem countDown_toNat (b : Byte) : (countDown b).toNat = b.toNat - 1 := by
  unfold countDown
  split
  · next h => simp [h]
  · next h => bv_omega

theorem keyByte_toNat (k : Key) : (keyByte k).toNat = k.val := by
  simp only [keyByte, BitVec.toNat_ofNat]
  omega

theorem State.pressed_hostSetKey (s : State) (k j : Key) (l : Bool) :
    (s.hostSetKey k l).pressed j = if j = k then l else s.pressed j := by
  simp only [State.pressed, State.hostSetKey, Fin.getElem_fin, Vector.getElem_set, Fin.ext_iff,
    eq_comm]

theorem execLdVxK_takes_only {x : Reg} {k : Key} (h : ∀ j, s.pressed j = true ↔ j = k) :
    ∃ t, exec (.ldVxK x) s = .next t ∧ t.getV x = keyByte k := by
  have hk : k ∈ s.pressedKeys := State.mem_pressedKeys.2 ((h k).2 rfl)
  obtain ⟨k₀, ks, hks⟩ := List.exists_cons_of_ne_nil (List.ne_nil_of_mem hk)
  have hpick : pickKey (Config.drawKey s.draws) k₀ ks = k :=
    (h _).1 (State.mem_pressedKeys.1 (hks ▸ pickKey_mem _ k₀ ks))
  exact ⟨_, execLdVxK_takes hks, by rw [hpick, State.advance_getV, State.getV_setV_same]⟩

end

/-! ## The obligations -/

/-- Settles O19: the frame of `set_key`, of a step and of an instruction, and `exec_overlay` with
other key levels. -/
theorem keysWrittenByHostReadByThreeForms : Obligations.KeysWrittenByHostReadByThreeForms := by
  refine ⟨fun s k l => ⟨hostSetKey_sameBut s k l, fun j => s.pressed_hostSetKey k j l⟩,
    fun _ _ => step_keys, fun i s keys hi => ?_, fun x s k l hx => ?_, fun x s k hk => ?_⟩
  · have hex := exec_overlay (s := s) (o := { keys := some keys }) (.inr rfl) (.inl hi)
    simp only [Overlay.outside, if_neg (keys_notMem_writes i), ite_self] at hex
    exact hex
  · have hkey : keyOf ((s.hostSetKey k l).getV x) = some k := keyOf_eq_some.2 hx
    refine ⟨⟨_, execSkp_key hkey, ?_⟩, ⟨_, execSknp_key hkey, ?_⟩⟩ <;>
      cases l <;> simp [State.pressed_hostSetKey]
  · obtain ⟨t, ht, hv⟩ := execLdVxK_takes_only (s := s.hostSetKey k true) (x := x) (k := k)
      fun j => by simp [State.pressed_hostSetKey, hk]
    exact ⟨t, ht, by rw [hv, keyByte_toNat]⟩

/-- Settles O20: `exec_overlay` with another sound timer; FX18 drops it. -/
theorem soundTimerReadByNoInstruction : Obligations.SoundTimerReadByNoInstruction := by
  have hst {i : Instr} (hi : ∀ x, i ≠ .ldStVx x) : Part.st ∉ i.writes := fun h =>
    (st_mem_writes_iff.1 h).elim hi
  refine ⟨fun x s => ⟨_, rfl, rfl⟩, fun s => countDown_toNat s.st,
    fun i s t h hi => exec_sameBut_writes h .st (hst hi), fun i s v hi => ?_, fun _ _ _ => rfl,
    fun s v => (setSt_sameBut s.tick _).trans (sameBut_tone _ _)⟩
  have hex := exec_overlay (i := i) (s := s) (o := { st := some v }) (.inr rfl) (.inr rfl)
  simp only [Overlay.outside, if_neg (hst hi), ite_self] at hex
  exact hex

/-- Settles O21: `exec_overlay` with another delay timer; FX15 drops it, FX07 is left out. -/
theorem delayTimerReadByOneForm : Obligations.DelayTimerReadByOneForm := by
  have hdt {i : Instr} (hi : ∀ x, i ≠ .ldDtVx x) : Part.dt ∉ i.writes := fun h =>
    (dt_mem_writes_iff.1 h).elim hi
  refine ⟨fun x s => ⟨_, rfl, rfl⟩, fun s => countDown_toNat s.dt,
    fun x s => ⟨_, rfl, s.getV_setV_same x s.dt⟩,
    fun i s t h hi => exec_sameBut_writes h .dt (hdt hi), fun i s v hi => ?_, fun _ _ _ => rfl⟩
  have hex := exec_overlay (s := s) (o := { dt := some v }) (.inl fun x => (hi x).2) (.inr rfl)
  simp only [Overlay.outside, if_neg (hdt fun x => (hi x).1), ite_self] at hex
  exact hex

/-- Settles O22: `exec_overlay` with another dirty flag, which 00E0 and DXYN drop. -/
theorem dirtySetByDrawingClearedByHostOnly : Obligations.DirtySetByDrawingClearedByHostOnly := by
  refine ⟨fun _ _ => execCls_sets_dirty, fun _ _ _ _ _ => execDrw_sets_dirty,
    fun i s t h hcls hdrw => ?_, fun i s d => ?_, fun _ _ => step_keeps_dirty_set,
    fun s => ⟨rfl, hostClearDirty_sameBut s⟩⟩
  · refine exec_sameBut_writes h .dirty fun hw => ?_
    obtain rfl | ⟨x, y, n, rfl⟩ := dirty_mem_writes_iff.1 hw
    · exact hcls rfl
    · exact hdrw x y n rfl
  · have hex := exec_overlay (i := i) (s := s) (o := { dirty := some d }) (.inr rfl) (.inr rfl)
    by_cases hw : Part.dirty ∈ i.writes
    · simp only [Overlay.outside, if_pos hw, ite_self] at hex ⊢
      exact hex
    · simp only [Overlay.outside, if_neg hw, ite_self] at hex ⊢
      exact hex

end Sys2Proof.Machine

/-! Decoding the families with a sub-opcode (30_encoding.md R97 to R99). -/

namespace Sys2Proof

/-! ## The decoder's match as a table of sub-opcodes -/

/-- The form a table lists for the sub-opcode `k` of `op`; `op` is invalid where it lists none. -/
def decodeBySubOpcode (op : Word) (table : List (Nat × Instr)) (k : Nat) :
    Except DecodeError Instr :=
  match table.lookup k with
  | some i => .ok i
  | none => .error (.invalidOpcode op)

@[simp] theorem decodeBySubOpcode_nil (op : Word) (k : Nat) :
    decodeBySubOpcode op [] k = .error (.invalidOpcode op) := rfl

@[simp] theorem decodeBySubOpcode_cons (op : Word) (j : Nat) (i : Instr)
    (table : List (Nat × Instr)) (k : Nat) :
    decodeBySubOpcode op ((j, i) :: table) k =
      if k = j then .ok i else decodeBySubOpcode op table k := by
  by_cases h : k = j
  · simp [decodeBySubOpcode, h]
  · simp [decodeBySubOpcode, List.lookup_cons, beq_false_of_ne h, h]

/-! The cases are the arms of the decoder's match; the last one, where the sub-opcode is none of the
listed values, passes every row of the table. -/

theorem decodeFamily8_eq_decodeBySubOpcode (op : Word) :
    decodeFamily8 op = decodeBySubOpcode op
      [(0x0, .ldReg (fieldX op) (fieldY op)), (0x1, .orReg (fieldX op) (fieldY op)),
        (0x2, .andReg (fieldX op) (fieldY op)), (0x3, .xorReg (fieldX op) (fieldY op)),
        (0x4, .addReg (fieldX op) (fieldY op)), (0x5, .subReg (fieldX op) (fieldY op)),
        (0x6, .shr (fieldX op) (fieldY op)), (0x7, .subn (fieldX op) (fieldY op)),
        (0xE, .shl (fieldX op) (fieldY op))] (fieldN op) := by
  unfold decodeFamily8
  split
  case h_10 =>
    simp (disch := assumption) only [decodeBySubOpcode_cons, if_neg, decodeBySubOpcode_nil]
  all_goals simp [*]

theorem decodeFamilyE_eq_decodeBySubOpcode (op : Word) :
    decodeFamilyE op = decodeBySubOpcode op
      [(0x9E, .skp (fieldX op)), (0xA1, .sknp (fieldX op))] (fieldNN op).toNat := by
  unfold decodeFamilyE
  split
  case h_3 =>
    simp (disch := assumption) only [decodeBySubOpcode_cons, if_neg, decodeBySubOpcode_nil]
  all_goals simp [*]

theorem decodeFamilyF_eq_decodeBySubOpcode (op : Word) :
    decodeFamilyF op = decodeBySubOpcode op
      [(0x07, .ldVxDt (fieldX op)), (0x0A, .ldVxK (fieldX op)), (0x15, .ldDtVx (fieldX op)),
        (0x18, .ldStVx (fieldX op)), (0x1E, .addI (fieldX op)), (0x29, .ldF (fieldX op)),
        (0x33, .ldB (fieldX op)), (0x55, .storeRegs (fieldX op)),
        (0x65, .loadRegs (fieldX op))] (fieldNN op).toNat := by
  unfold decodeFamilyF
  split
  case h_10 =>
    simp (disch := assumption) only [decodeBySubOpcode_cons, if_neg, decodeBySubOpcode_nil]
  all_goals simp [*]

/-! ## The family nibble picks the decoder -/

theorem fieldF_eq_div (op : Word) : fieldF op = op.toNat / 0x1000 := by
  rw [fieldF_eq]
  omega

theorem decodeWord_family8 {op : Word} (h : fieldF op = 0x8) :
    decodeWord op = decodeFamily8 op := by
  simp only [decodeWord, h]

theorem decodeWord_familyE {op : Word} (h : fieldF op = 0xE) :
    decodeWord op = decodeFamilyE op := by
  simp only [decodeWord, h]

theorem decodeWord_familyF {op : Word} (h : fieldF op = 0xF) :
    decodeWord op = decodeFamilyF op := by
  simp only [decodeWord, h]

/-! ## The obligation -/

/-- Settles O3: the family nibble picks the family's decoder, and that decoder is a look-up of the
sub-opcode in the listed table. -/
theorem subOpcodeFamiliesDecodeAsListed : Obligations.SubOpcodeFamiliesDecodeAsListed := by
  intro op x y hx hy
  obtain rfl : x = fieldX op := Fin.ext (hx.trans (fieldX_val op).symm)
  obtain rfl : y = fieldY op := Fin.ext (hy.trans (fieldY_val op).symm)
  rw [← fieldF_eq_div, ← fieldN_eq, ← fieldNN_toNat]
  refine ⟨fun hf => ?_, fun hf => ?_, fun hf => ?_⟩
  · exact (decodeWord_family8 hf).trans (decodeFamily8_eq_decodeBySubOpcode op)
  · exact (decodeWord_familyE hf).trans (decodeFamilyE_eq_decodeBySubOpcode op)
  · exact (decodeWord_familyF hf).trans (decodeFamilyF_eq_decodeBySubOpcode op)

end Sys2Proof

/-! The halt on an invalid word, the jump, and the skips on a constant (40_dispatch.md R124, R132,
R134, R135). -/

namespace Sys2Proof.Machine

/-! ## The halt -/

theorem haltInvalidOpcode_sameBut (s : State) :
    SameBut [.terminate, .tone] s s.haltInvalidOpcode := by
  intro p hp
  cases p <;> simp_all [Part.same]

/-- A running CORE whose word is no instruction halts. -/
theorem step_of_decode_error {s : State} {op : Word} {e : DecodeError}
    (ht : s.terminate = false) (hf : s.fetchWord = some op) (hd : decodeWord op = .error e) :
    step s = .next s.haltInvalidOpcode := by
  simp [step, ht, hf, hd]

/-! ## The jump and the skips -/

theorem exec_jp (nnn : Word) (s : State) : exec (.jp nnn) s = .next (s.setPc nnn) := rfl

theorem exec_seImm (x : Reg) (nn : Byte) (s : State) :
    exec (.seImm x nn) s = .next (s.skipIf (s.getV x == nn)) := rfl

theorem exec_sneImm (x : Reg) (nn : Byte) (s : State) :
    exec (.sneImm x nn) s = .next (s.skipIf (s.getV x != nn)) := rfl

theorem setPc_sameBut (s : State) (a : Word) : SameBut [.pc] s (s.setPc a) := sameBut_pc s a

theorem skipIf_sameBut (s : State) (c : Bool) : SameBut [.pc] s (s.skipIf c) := sameBut_pc s _

theorem skipIf_taken_pc {s : State} {c : Bool} (h : c = true) : (s.skipIf c).pc = s.pc + 4 := by
  rw [State.skipIf_pc, if_pos h]

theorem skipIf_not_taken_pc {s : State} {c : Bool} (h : c = false) :
    (s.skipIf c).pc = s.pc + 2 := by
  rw [State.skipIf_pc, if_neg (Bool.eq_false_iff.1 h)]

/-! ## The obligations -/

/-- Settles O9: the step is `haltInvalidOpcode`, whose frame leaves out the halt flag and the tone
output. -/
theorem invalidWordHaltsAndChangesNothingElse :
    Obligations.InvalidWordHaltsAndChangesNothingElse := fun s _ _ ht hf hd =>
  ⟨s.haltInvalidOpcode, step_of_decode_error ht hf hd, s.haltInvalidOpcode_terminate,
    s.haltInvalidOpcode_tone, haltInvalidOpcode_sameBut s⟩

/-- Settles O30: the jump is one write of `pc`. -/
theorem jumpSetsPc : Obligations.JumpSetsPc := fun nnn s =>
  ⟨s.setPc nnn, exec_jp nnn s, s.setPc_pc nnn, setPc_sameBut s nnn⟩

/-- Settles O35: both forms are `skipIf`, taken on equality by 3XNN and on inequality by 4XNN. -/
theorem immediateSkips : Obligations.ImmediateSkips := by
  refine fun x nn s => ⟨⟨_, exec_seImm x nn s, skipIf_sameBut s _, fun heq => ?_, fun hne => ?_⟩,
    ⟨_, exec_sneImm x nn s, skipIf_sameBut s _, fun hne => ?_, fun heq => ?_⟩⟩
  · exact skipIf_taken_pc (beq_iff_eq.2 heq)
  · exact skipIf_not_taken_pc (beq_false_of_ne hne)
  · exact skipIf_taken_pc (bne_iff_ne.2 hne)
  · exact skipIf_not_taken_pc (bne_eq_false_iff_eq.2 heq)

end Sys2Proof.Machine

/-! The loads of a register and the addition of a constant (41_arith.md R162 to R164). -/

namespace Sys2Proof.Machine

/-! ## One register written, then `pc` advanced -/

theorem exec_ldImm (x : Reg) (nn : Byte) (s : State) :
    exec (.ldImm x nn) s = .next (s.setV x nn).advance := rfl

theorem exec_ldReg (x y : Reg) (s : State) :
    exec (.ldReg x y) s = .next (s.setV x (s.getV y)).advance := rfl

theorem exec_addImm (x : Reg) (nn : Byte) (s : State) :
    exec (.addImm x nn) s = .next (s.setV x (s.getV x + nn)).advance := rfl

theorem setV_advance_getV_other {x r : Reg} (s : State) (b : Byte) (h : r ≠ x) :
    (s.setV x b).advance.getV r = s.getV r := by
  rw [State.advance_getV, State.getV_setV_other s b h]

theorem setV_advance_sameBut (s : State) (x : Reg) (b : Byte) :
    SameBut [.V, .pc] s (s.setV x b).advance :=
  (setV_sameBut s x b).trans (advance_sameBut _)

/-- What the forms that write one register do, whatever byte they write. -/
theorem setV_advance_spec (s : State) (x : Reg) (b : Byte) :
    (s.setV x b).advance.getV x = b ∧
      (∀ r, r ≠ x → (s.setV x b).advance.getV r = s.getV r) ∧
      (s.setV x b).advance.pc = s.pc + 2 ∧ SameBut [.V, .pc] s (s.setV x b).advance :=
  ⟨s.getV_setV_same x b, fun _ => setV_advance_getV_other s b, rfl, setV_advance_sameBut s x b⟩

/-! ## The obligations -/

/-- Settles O37: both forms write one register, 6XNN with its constant and 8XY0 with `V[Y]`. -/
theorem registerLoads : Obligations.RegisterLoads := fun x y nn s =>
  ⟨⟨_, exec_ldImm x nn s, setV_advance_spec s x nn⟩,
    ⟨_, exec_ldReg x y s, setV_advance_spec s x (s.getV y)⟩⟩

/-- Settles O38: 7XNN writes one register, with the 8-bit sum, whose value is the sum modulo 256. -/
theorem addImmediateWrapsWithoutCarry : Obligations.AddImmediateWrapsWithoutCarry := by
  intro x nn s
  obtain ⟨hx, hframe⟩ := setV_advance_spec s x (s.getV x + nn)
  refine ⟨_, exec_addImm x nn s, ?_, hframe⟩
  rw [hx]
  exact BitVec.toNat_add (s.getV x) nn

end Sys2Proof.Machine

/-! The loads of the address register (42_memory_ops.md R191, R193). -/

namespace Sys2Proof.Machine

/-! ## The address register written, then `pc` advanced -/

theorem exec_ldI (nnn : Word) (s : State) : exec (.ldI nnn) s = .next (s.setI nnn).advance := rfl

theorem exec_ldF (x : Reg) (s : State) :
    exec (.ldF x) s = .next (s.setI (glyphAddr (s.getV x))).advance := rfl

theorem setI_advance_sameBut (s : State) (a : Word) : SameBut [.I, .pc] s (s.setI a).advance :=
  (setI_sameBut s a).trans (advance_sameBut _)

/-- What the forms that write the address register do, whatever address they write. -/
theorem setI_advance_spec (s : State) (a : Word) :
    (s.setI a).advance.I = a ∧ (s.setI a).advance.pc = s.pc + 2 ∧
      SameBut [.I, .pc] s (s.setI a).advance :=
  ⟨s.setI_I a, (s.setI a).advance_pc, setI_advance_sameBut s a⟩

/-- The largest product, `255 * 5`, fits in 16 bits. -/
theorem glyphAddr_toNat (b : Byte) : (glyphAddr b).toNat = b.toNat * 5 := by
  have hb : b.toNat < 256 := b.isLt
  exact (BitVec.toNat_ofNat _ 16).trans (Nat.mod_eq_of_lt (by omega))

/-! ## The obligation -/

/-- Settles O44: both forms write the address register, ANNN with its constant and FX29 with the
glyph address, which is the product itself as it does not overflow. -/
theorem addressRegisterLoads : Obligations.AddressRegisterLoads := by
  refine fun nnn x s => ⟨⟨_, exec_ldI nnn s, setI_advance_spec s nnn⟩, ?_⟩
  obtain ⟨hI, hframe⟩ := setI_advance_spec s (glyphAddr (s.getV x))
  refine ⟨_, exec_ldF x s, ?_, hframe⟩
  rw [hI]
  exact glyphAddr_toNat (s.getV x)

end Sys2Proof.Machine

/-! The clearing of the display and the torus DXYN draws on (43_display.md R210, R211). -/

namespace Sys2Proof.Machine

/-! ## The clear -/

theorem exec_cls (s : State) : exec .cls s = .next (s.redraw Display.blank).advance := rfl

theorem redraw_advance_sameBut (s : State) (d : Display) :
    SameBut [.disp, .dirty, .pc] s (s.redraw d).advance :=
  (redraw_sameBut s d).trans (advance_sameBut _)

/-! ## A sprite is placed by the residues of its coordinates -/

theorem colOf_add_congr {x x' : Nat} (h : x' % 64 = x % 64) (c : Nat) :
    colOf (x' + c) = colOf (x + c) := Fin.ext (Nat.ModEq.add_right c h)

theorem drawRow_congr {x x' y y' : Nat} (hx : x' % 64 = x % 64) (hy : y' % 32 = y % 32)
    (b : Byte) (acc : Display × Bool) : drawRow x' y' b acc = drawRow x y b acc := by
  have hrow : rowOf y' = rowOf y := Fin.ext hy
  simp only [drawRow, hrow, colOf_add_congr hx]

theorem drawRows_congr {x x' : Nat} (hx : x' % 64 = x % 64) (bs : List Byte) :
    ∀ {y y' : Nat} (acc : Display × Bool), y' % 32 = y % 32 →
      drawRows x' y' bs acc = drawRows x y bs acc := by
  induction bs with
  | nil => exact fun _ _ => rfl
  | cons b bs ih =>
    intro y y' acc hy
    rw [drawRows, drawRows, drawRow_congr hx hy]
    exact ih _ (Nat.ModEq.add_right 1 hy)

/-! ## What is read at `I` does not depend on the registers

A frame compares memory byte by byte below 4096, and `phys` resolves no address above that. -/

theorem SameBut.readByte {changed : List Part} {s t : State} (h : SameBut changed s t)
    (hmem : Part.mem ∉ changed) (hparams : Part.params ∉ changed) (a : Nat) :
    t.readByte a = s.readByte a := by
  have hp : t.params = s.params := h .params hparams
  have hm : ∀ q, q < 4096 → t.memByte q = s.memByte q := h .mem hmem
  rw [State.readByte, State.readByte, hp]
  exact Option.map_congr fun q hq => hm q (phys_lt hq)

theorem SameBut.readBytes {changed : List Part} {s t : State} (h : SameBut changed s t)
    (hmem : Part.mem ∉ changed) (hparams : Part.params ∉ changed) (n : Nat) :
    ∀ a, t.readBytes a n = s.readBytes a n := by
  induction n with
  | zero => exact fun _ => rfl
  | succ n ih =>
    intro a
    simp only [State.readBytes, h.readByte hmem hparams, ih]

theorem SameBut.effAddr {changed : List Part} {s t : State} (h : SameBut changed s t)
    (hI : Part.I ∉ changed) (k : Nat) : t.effAddr k = s.effAddr k :=
  congrArg (fun a : Word => a.toNat + k) (h .I hI)

/-! ## The obligations -/

/-- Settles O49: 00E0 is one redraw with the blank display. -/
theorem clearDisplayZeroesEveryPixel : Obligations.ClearDisplayZeroesEveryPixel := fun s =>
  ⟨_, exec_cls s, Display.pixel_blank, s.redraw_dirty Display.blank, rfl,
    redraw_advance_sameBut s Display.blank⟩

/-- Settles O51: both states read the same sprite bytes or none, and both place the sprite at the
same residues. -/
theorem drawCoordinatesAreToroidal : Obligations.DrawCoordinatesAreToroidal := by
  intro x y n s s' hsame hx hy
  have hread : s'.readBytes (s'.effAddr 0) n = s.readBytes (s.effAddr 0) n := by
    rw [hsame.effAddr (by decide), hsame.readBytes (by decide) (by decide)]
  have hdisp : s'.disp = s.disp := hsame .disp (by decide)
  cases hs : s.readBytes (s.effAddr 0) n with
  | none =>
    rw [execDrw_outside hs, execDrw_outside (hread.trans hs)]
    exact ⟨fun _ h => (nomatch h), fun _ h => h⟩
  | some bs =>
    rw [execDrw_draws hs, execDrw_draws (hread.trans hs), hdisp, drawRows_congr hx bs _ hy]
    refine ⟨fun t h => ?_, fun _ h => nomatch h⟩
    cases h
    refine ⟨_, rfl, rfl, ?_⟩
    simp only [State.advance_getV, State.getV_setV_same]

end Sys2Proof.Machine

/-! The decoder as a search in the opcode map, and the encoder as its inverse (30_encoding.md R95,
R101, R102, R106). -/

namespace Sys2Proof

/-! ## The rows of the opcode map as conditions on the fields of a word -/

theorem and_family_iff {op k : Word} (hk : k.toNat % 0x1000 = 0) :
    op &&& 0xF000 = k ↔ fieldF op = k.toNat / 0x1000 := by
  rw [← BitVec.toNat_inj, mask_family, fieldF_eq_div]
  omega

theorem and_nibble_iff {op k : Word} (hk : k.toNat / 0x10 % 0x100 = 0) :
    op &&& 0xF00F = k ↔ fieldF op = k.toNat / 0x1000 ∧ fieldN op = k.toNat % 0x10 := by
  rw [← BitVec.toNat_inj, mask_nibble, fieldF_eq_div, fieldN_eq]
  omega

theorem and_byte_iff {op k : Word} (hk : k.toNat / 0x100 % 0x10 = 0) :
    op &&& 0xF0FF = k ↔ fieldF op = k.toNat / 0x1000 ∧ (fieldNN op).toNat = k.toNat % 0x100 := by
  rw [← BitVec.toNat_inj, mask_byte, fieldF_eq_div, fieldNN_toNat]
  omega

/-! ## The decoder -/

/-- Every form of the opcode map, row by row, with the operands that the fields of `op` give it. -/
def formsOf (op : Word) : List Instr :=
  [.cls, .ret, .jp (fieldNNN op), .call (fieldNNN op), .seImm (fieldX op) (fieldNN op),
    .sneImm (fieldX op) (fieldNN op), .seReg (fieldX op) (fieldY op),
    .ldImm (fieldX op) (fieldNN op), .addImm (fieldX op) (fieldNN op),
    .ldReg (fieldX op) (fieldY op), .orReg (fieldX op) (fieldY op),
    .andReg (fieldX op) (fieldY op), .xorReg (fieldX op) (fieldY op),
    .addReg (fieldX op) (fieldY op), .subReg (fieldX op) (fieldY op),
    .shr (fieldX op) (fieldY op), .subn (fieldX op) (fieldY op), .shl (fieldX op) (fieldY op),
    .sneReg (fieldX op) (fieldY op), .ldI (fieldNNN op), .jpV0 (fieldNNN op),
    .rnd (fieldX op) (fieldNN op), .drw (fieldX op) (fieldY op) (fieldN op), .skp (fieldX op),
    .sknp (fieldX op), .ldVxDt (fieldX op), .ldVxK (fieldX op), .ldDtVx (fieldX op),
    .ldStVx (fieldX op), .addI (fieldX op), .ldF (fieldX op), .ldB (fieldX op),
    .storeRegs (fieldX op), .loadRegs (fieldX op)]

theorem formsOf_map_key (op : Word) : (formsOf op).map Instr.key = opcodeTable := rfl

/-- No two rows of the opcode map match one word: their fixed bits differ under both masks. -/
theorem opcodeTable_disjoint :
    opcodeTable.Pairwise fun r r' => r.2 &&& r'.1 ≠ r'.2 &&& r.1 := by decide

theorem eq_of_matches_both {op : Word} {r r' : Word × Word} (hr : r ∈ opcodeTable)
    (hr' : r' ∈ opcodeTable) (h : op &&& r.1 = r.2) (h' : op &&& r'.1 = r'.2) : r = r' := by
  by_contra hne
  have : Std.Symm fun r r' : Word × Word => r.2 &&& r'.1 ≠ r'.2 &&& r.1 := ⟨fun _ _ => Ne.symm⟩
  refine opcodeTable_disjoint.forall hr hr' hne ?_
  rw [← h, ← h', BitVec.and_assoc, BitVec.and_assoc, BitVec.and_comm r.1]

/-- The arms of the decoder's match, each with the fields it has tested. -/
theorem decodeWord_ok_matches {op : Word} {i : Instr} (h : decodeWord op = .ok i) :
    i ∈ formsOf op ∧ op &&& i.key.1 = i.key.2 := by
  unfold decodeWord decodeFamily0 decodeFamily8 decodeFamilyE decodeFamilyF at h
  split at h
  case h_1 | h_9 | h_15 | h_16 =>
    split at h <;> cases h
    all_goals
      refine ⟨by simp [formsOf], ?_⟩
      simp (disch := decide) only [Instr.key, and_nibble_iff, and_byte_iff]
      constructor <;> assumption
  case h_17 => cases h
  all_goals
    cases h
    refine ⟨by simp [formsOf], ?_⟩
    simp (disch := decide) only [Instr.key, and_family_iff]
    assumption

theorem decodeWord_of_matches {op : Word} {i : Instr} (hi : i ∈ formsOf op)
    (h : op &&& i.key.1 = i.key.2) : decodeWord op = .ok i := by
  refine Eq.symm ?_
  cases i with
  | jp | call | seImm | sneImm | seReg | ldImm | addImm | sneReg | ldI | jpV0 | rnd | drw =>
    simp (disch := decide) only [Instr.key, and_family_iff] at h
    simpa [decodeWord, h, formsOf] using hi
  | ldReg | orReg | andReg | xorReg | addReg | subReg | shr | subn | shl =>
    simp (disch := decide) only [Instr.key, and_nibble_iff] at h
    simpa [decodeWord, decodeFamily8, h, formsOf] using hi
  | cls | ret =>
    simp (disch := decide) only [Instr.key, and_byte_iff] at h
    simp [decodeWord, decodeFamily0, h]
  | skp | sknp | ldVxDt | ldVxK | ldDtVx | ldStVx | addI | ldF | ldB | storeRegs | loadRegs =>
    simp (disch := decide) only [Instr.key, and_byte_iff] at h
    simpa [decodeWord, decodeFamilyE, decodeFamilyF, h, formsOf] using hi

theorem decodeWord_error {op : Word} {e : DecodeError} (h : decodeWord op = .error e) :
    e = .invalidOpcode op := by
  unfold decodeWord decodeFamily0 decodeFamily8 decodeFamilyE decodeFamilyF at h
  split at h
  case h_1 | h_9 | h_15 | h_16 =>
    split at h <;> cases h
    rfl
  case h_17 =>
    cases h
    rfl
  all_goals cases h

theorem key_mem_opcodeTable (i : Instr) : i.key ∈ opcodeTable := by
  cases i <;> simp [Instr.key, opcodeTable]

theorem decodeWord_eq_invalid_iff {op : Word} :
    decodeWord op = .error (.invalidOpcode op) ↔ ∀ r ∈ opcodeTable, op &&& r.1 ≠ r.2 := by
  constructor
  · intro herr r hr hmatch
    rw [← formsOf_map_key op] at hr
    obtain ⟨i, hi, rfl⟩ := List.mem_map.1 hr
    rw [decodeWord_of_matches hi hmatch] at herr
    cases herr
  · intro hnone
    cases h : decodeWord op with
    | ok i => exact absurd (decodeWord_ok_matches h).2 (hnone _ (key_mem_opcodeTable i))
    | error e => rw [decodeWord_error h]

theorem opcodeTable_masks_family : ∀ r ∈ opcodeTable, r.1 &&& 0xF000 = 0xF000 := by
  simp [opcodeTable]

theorem fieldF_eq_of_decode {op : Word} {i : Instr} (h : decodeWord op = .ok i) :
    fieldF op = i.key.2.toNat / 0x1000 := by
  have hfamily : op &&& 0xF000 = i.key.2 &&& 0xF000 := by
    rw [← (decodeWord_ok_matches h).2, BitVec.and_assoc,
      opcodeTable_masks_family _ (key_mem_opcodeTable i)]
  rw [← BitVec.toNat_inj, mask_family, mask_family] at hfamily
  rw [fieldF_eq_div]
  omega

/-! ## The encoder -/

/-! A word is laid out again from its own fields (30_encoding.md R91, R92). -/

theorem layoutA_fields (op : Word) : layoutA (fieldF op) (fieldNNN op) = op := by
  apply BitVec.eq_of_toNat_eq
  rw [layoutA_toNat _ (fieldF_lt op), fieldF_eq_div, fieldNNN_toNat]
  omega

theorem layoutXI_fields (op : Word) : layoutXI (fieldF op) (fieldX op) (fieldNN op) = op := by
  apply BitVec.eq_of_toNat_eq
  rw [layoutXI_toNat _ _ (fieldF_lt op), fieldF_eq_div, fieldX_val, fieldNN_toNat]
  omega

theorem layoutXYN_fields (op : Word) :
    layoutXYN (fieldF op) (fieldX op) (fieldY op) (fieldN op) = op := by
  apply BitVec.eq_of_toNat_eq
  rw [layoutXYN_toNat _ _ _ (fieldF_lt op), fieldF_eq_div, fieldX_val, fieldY_val, fieldN_eq]
  omega

theorem layoutXK_fields (op : Word) :
    layoutXK (fieldF op) (fieldX op) (fieldNN op).toNat = op := by
  apply BitVec.eq_of_toNat_eq
  rw [layoutXK_toNat _ (fieldF_lt op) (fieldNN op).isLt, fieldF_eq_div, fieldX_val, fieldNN_toNat]
  omega

/-- `op[11:8]` left out. -/
theorem layoutXK_zero_fields (op : Word) :
    layoutXK (fieldF op) 0 (fieldNN op).toNat = op &&& 0xF0FF := by
  apply BitVec.eq_of_toNat_eq
  rw [layoutXK_toNat _ (fieldF_lt op) (fieldNN op).isLt, mask_byte, fieldF_eq_div, fieldNN_toNat]
  simp

theorem mask_upper (op : Word) : (op &&& 0xFFF0).toNat = op.toNat / 0x10 * 0x10 := by
  have h : op &&& (0xFFF0 : Word) = (op >>> 4) <<< 4 := by
    apply BitVec.eq_of_getLsbD_eq
    intro i hi
    interval_cases i <;> simp
  rw [h]
  simp only [BitVec.toNat_shiftLeft, BitVec.toNat_ushiftRight, Nat.shiftRight_eq_div_pow,
    Nat.shiftLeft_eq]
  omega


/-- `op[3:0]` left out. -/
theorem layoutXYN_zero_fields (op : Word) :
    layoutXYN (fieldF op) (fieldX op) (fieldY op) 0 = op &&& 0xFFF0 := by
  apply BitVec.eq_of_toNat_eq
  rw [layoutXYN_toNat _ _ _ (fieldF_lt op), mask_upper, fieldF_eq_div, fieldX_val, fieldY_val]
  omega

/-- The canonical spelling of a word that spells `i`: the decoder ignores `op[11:8]` of 00E0 and
00EE and `op[3:0]` of 5XY0 and 9XY0 (30_encoding.md R101). -/
def Instr.spelling (op : Word) : Instr → Word
  | .cls | .ret => op &&& 0xF0FF
  | .seReg _ _ | .sneReg _ _ => op &&& 0xFFF0
  | _ => op

theorem encode_of_decode {op : Word} {i : Instr} (h : decodeWord op = .ok i) :
    encode i = i.spelling op := by
  obtain ⟨hi, hkey⟩ := decodeWord_ok_matches h
  cases i with
  | jp nnn | call nnn | ldI nnn | jpV0 nnn =>
    simp (disch := decide) only [Instr.key, and_family_iff] at hkey
    obtain rfl : nnn = fieldNNN op := by simpa [formsOf] using hi
    simpa [encode, Instr.spelling, hkey] using layoutA_fields op
  | seImm x nn | sneImm x nn | ldImm x nn | addImm x nn | rnd x nn =>
    simp (disch := decide) only [Instr.key, and_family_iff] at hkey
    obtain ⟨rfl, rfl⟩ : x = fieldX op ∧ nn = fieldNN op := by simpa [formsOf] using hi
    simpa [encode, Instr.spelling, hkey] using layoutXI_fields op
  | seReg x y | sneReg x y =>
    simp (disch := decide) only [Instr.key, and_family_iff] at hkey
    obtain ⟨rfl, rfl⟩ : x = fieldX op ∧ y = fieldY op := by simpa [formsOf] using hi
    simpa [encode, Instr.spelling, hkey] using layoutXYN_zero_fields op
  | drw x y n =>
    simp (disch := decide) only [Instr.key, and_family_iff] at hkey
    obtain ⟨rfl, rfl, rfl⟩ : x = fieldX op ∧ y = fieldY op ∧ n = fieldN op := by
      simpa [formsOf] using hi
    simpa [encode, Instr.spelling, hkey] using layoutXYN_fields op
  | ldReg x y | orReg x y | andReg x y | xorReg x y | addReg x y | subReg x y | shr x y
  | subn x y | shl x y =>
    simp (disch := decide) only [Instr.key, and_nibble_iff] at hkey
    obtain ⟨rfl, rfl⟩ : x = fieldX op ∧ y = fieldY op := by simpa [formsOf] using hi
    simpa [encode, Instr.spelling, hkey] using layoutXYN_fields op
  | cls | ret =>
    simp (disch := decide) only [Instr.key, and_byte_iff] at hkey
    simpa [encode, Instr.spelling, hkey] using layoutXK_zero_fields op
  | skp x | sknp x | ldVxDt x | ldVxK x | ldDtVx x | ldStVx x | addI x | ldF x | ldB x
  | storeRegs x | loadRegs x =>
    simp (disch := decide) only [Instr.key, and_byte_iff] at hkey
    obtain rfl : x = fieldX op := by simpa [formsOf] using hi
    simpa [encode, Instr.spelling, hkey] using layoutXK_fields op

/-- Only the address forms and DXYN carry an operand that is bounded by no type. -/
theorem wf_of_decode {op : Word} {i : Instr} (h : decodeWord op = .ok i) : i.wf = true := by
  obtain ⟨hi, -⟩ := decodeWord_ok_matches h
  cases i with
  | jp nnn | call nnn | ldI nnn | jpV0 nnn =>
    obtain rfl : nnn = fieldNNN op := by simpa [formsOf] using hi
    refine decide_eq_true ?_
    rw [fieldNNN_toNat]
    omega
  | drw x y n =>
    obtain ⟨-, -, rfl⟩ : x = fieldX op ∧ y = fieldY op ∧ n = fieldN op := by
      simpa [formsOf] using hi
    refine decide_eq_true ?_
    rw [fieldN_eq]
    omega
  | _ => rfl

open Laws.EncodingKey in
/-- The encoded word carries the fixed bits of its row, and its fields are the operands. -/
theorem decodeWord_encode {i : Instr} (h : i.wf = true) : decodeWord (encode i) = .ok i := by
  refine decodeWord_of_matches ?_ ?_
  · cases i with
    | jp nnn | call nnn | ldI nnn | jpV0 nnn =>
      have hnnn : nnn.toNat ≤ 0xFFF := by simpa [Instr.wf, addressFits] using h
      simp (disch := omega) [formsOf, encode, fieldNNN_layoutA]
    | drw x y n =>
      have hn : n ≤ 15 := by simpa [Instr.wf, rowCountFits] using h
      simp (disch := omega) [formsOf, encode, fieldX_layoutXYN, fieldY_layoutXYN, fieldN_layoutXYN]
    | seImm | sneImm | ldImm | addImm | rnd =>
      simp (disch := decide) [formsOf, encode, fieldX_layoutXI, fieldNN_layoutXI]
    | seReg | ldReg | orReg | andReg | xorReg | addReg | subReg | shr | subn | shl | sneReg =>
      simp (disch := decide) [formsOf, encode, fieldX_layoutXYN, fieldY_layoutXYN]
    | cls | ret => simp [formsOf]
    | skp | sknp | ldVxDt | ldVxK | ldDtVx | ldStVx | addI | ldF | ldB | storeRegs | loadRegs =>
      simp (disch := decide) [formsOf, encode, fieldX_layoutXK]
  · cases i with
    | jp | call | ldI | jpV0 => exact layoutA_key _ (by decide) rfl
    | seImm | sneImm | ldImm | addImm | rnd => exact layoutXI_key _ _ (by decide) rfl
    | seReg | sneReg | drw => exact layoutXY_key _ _ _ (by decide) rfl
    | ldReg | orReg | andReg | xorReg | addReg | subReg | shr | subn | shl =>
      exact layoutXYN_key _ _ (by decide) (by decide) rfl
    | cls | ret => rfl
    | skp | sknp | ldVxDt | ldVxK | ldDtVx | ldStVx | addI | ldF | ldB | storeRegs | loadRegs =>
      exact layoutXK_key _ (by decide) (by decide) rfl

theorem decode_of_decodeWord {w : Word} {i : Instr} (h : decodeWord w = .ok i) (rest : List Byte) :
    decode (highByte w :: lowByte w :: rest) = .ok (i, rest) := by
  simp only [decode, Machine.wordOfBytes_high_low, h]

/-! ## The families of one form -/

theorem decodeWord_family0 {op : Word} (h : fieldF op = 0x0) :
    decodeWord op = decodeFamily0 op := by
  simp only [decodeWord, h]

theorem decodeFamily0_eq_decodeBySubOpcode (op : Word) :
    decodeFamily0 op = decodeBySubOpcode op [(0xE0, .cls), (0xEE, .ret)] (fieldNN op).toNat := by
  unfold decodeFamily0
  split
  case h_3 =>
    simp (disch := assumption) only [decodeBySubOpcode_cons, if_neg, decodeBySubOpcode_nil]
  all_goals simp [*]

/-! ## The obligations -/

/-- Settles O1: the encoded word matches its row of the opcode map and its fields are the operands,
so the decoder finds the instruction. -/
theorem decodeOfEncodeIsIdentity : Obligations.DecodeOfEncodeIsIdentity := fun _ rest hwf =>
  ⟨decodeWord_encode hwf, decode_of_decodeWord (decodeWord_encode hwf) rest⟩

/-- Settles O2: `encode_of_decode`, where the family tells which spelling applies. -/
theorem encodeOfDecodeIsCanonicalSpelling : Obligations.EncodeOfDecodeIsCanonicalSpelling := by
  intro op i h
  refine ⟨wf_of_decode h, ?_⟩
  rw [encode_of_decode h, ← fieldF_eq_div, fieldF_eq_of_decode h]
  cases i <;> simp [Instr.key, Instr.spelling]

/-- Settles O4: family 0x0 is a look-up of its low byte, and the family nibble alone picks the
other forms. -/
theorem plainFamiliesDecodeAsListed : Obligations.PlainFamiliesDecodeAsListed := by
  intro op nnn nn x y hnnn hnn hx hy
  obtain rfl : nnn = fieldNNN op := BitVec.eq_of_toNat_eq (hnnn.trans (fieldNNN_toNat op).symm)
  obtain rfl : nn = fieldNN op := BitVec.eq_of_toNat_eq (hnn.trans (fieldNN_toNat op).symm)
  obtain rfl : x = fieldX op := Fin.ext (hx.trans (fieldX_val op).symm)
  obtain rfl : y = fieldY op := Fin.ext (hy.trans (fieldY_val op).symm)
  rw [← fieldF_eq_div, ← fieldN_eq, ← fieldNN_toNat]
  refine ⟨fun hf => ?_, fun f i hmem hf => ?_⟩
  · exact (decodeWord_family0 hf).trans (decodeFamily0_eq_decodeBySubOpcode op)
  · subst hf
    simp only [List.mem_cons, List.not_mem_nil, Prod.mk.injEq, or_false] at hmem
    rcases hmem with ⟨hf, rfl⟩ | ⟨hf, rfl⟩ | ⟨hf, rfl⟩ | ⟨hf, rfl⟩ | ⟨hf, rfl⟩ | ⟨hf, rfl⟩ |
      ⟨hf, rfl⟩ | ⟨hf, rfl⟩ | ⟨hf, rfl⟩ | ⟨hf, rfl⟩ | ⟨hf, rfl⟩ | ⟨hf, rfl⟩
    all_goals simp only [decodeWord, hf]

/-- Settles O5: the decoder is a search in the opcode map, whose rows exclude each other. -/
theorem everyWordMatchesOneRowOrIsInvalid : Obligations.EveryWordMatchesOneRowOrIsInvalid := by
  intro op
  refine ⟨fun i h => ?_, decodeWord_eq_invalid_iff, fun h => nomatch decodeWord_error h⟩
  have hkey := (decodeWord_ok_matches h).2
  refine ⟨key_mem_opcodeTable i, fun r hr => ⟨fun hmatch => ?_, fun heq => heq ▸ hkey⟩⟩
  exact eq_of_matches_both hr (key_mem_opcodeTable i) hmatch hkey

/-- Settles O6: each word decoded by evaluation. -/
theorem sampleWordsDecode : Obligations.SampleWordsDecode := by
  unfold Obligations.SampleWordsDecode
  decide

end Sys2Proof

/-! The step and its phases: halt, fetch, tick, tone output and the self-jump (40_dispatch.md R120
to R128, 44_input_timers.md R237 to R239, 70_reset_and_hazards.md R301). -/

namespace Sys2Proof.Machine

section

variable {s t : State}

/-! ## How a step ends -/

theorem step_of_halted (h : s.terminate = true) : step s = .next s.stayHalted := by
  simp [step, h]

theorem step_of_fetch_none (ht : s.terminate = false) (hf : s.fetchWord = none) :
    step s = .fault .addressOutOfRange := by
  simp [step, ht, hf]

theorem stayHalted_sameBut (s : State) : SameBut [.tone] s s.stayHalted := sameBut_tone s false

theorem tick_sameBut (s : State) : SameBut [.dt, .st, .tone] s s.tick :=
  (setDt_sameBut s (countDown s.dt)).trans
    ((setSt_sameBut _ (countDown s.st)).trans (sameBut_tone _ (decide (s.st = 1))))

theorem terminate_notMem_writes (i : Instr) : Part.terminate ∉ i.writes := by
  cases i <;> simp [Instr.writes]

theorem exec_keeps_terminate {i : Instr} (h : exec i s = .next t) : t.terminate = s.terminate :=
  exec_sameBut_writes h .terminate (terminate_notMem_writes i)

/-! ## The fetch -/

theorem wordOfBytes_toNat (hi lo : Byte) :
    (wordOfBytes hi lo).toNat = hi.toNat * 256 + lo.toNat := by
  rw [wordOfBytes, BitVec.toNat_append, ← Nat.shiftLeft_add_eq_or_of_lt lo.isLt, Nat.shiftLeft_eq]

/-- Both policies read the byte at the address modulo 4096 where they read one. -/
theorem State.readByte_resolves {a : Nat} (h : a ≤ 0xFFF ∨ s.params.addrPolicy = .wrap12) :
    s.readByte a = some (s.memByte (a % 4096)) := by
  rcases h with h | h
  · rw [State.readByte_inside s h, Nat.mod_eq_of_lt (by omega)]
  · rw [State.readByte, h, phys_wrap12, Option.map_some]

theorem State.fetchWord_of_readByte {hi lo : Byte} (hhi : s.readByte s.pc.toNat = some hi)
    (hlo : s.readByte (s.pc.toNat + 1) = some lo) : s.fetchWord = some (wordOfBytes hi lo) := by
  simp only [State.fetchWord, hhi, hlo]

/-! ## The self-jump -/

theorem State.atSelfJump_iff : s.atSelfJump = true ↔
    s.terminate = false ∧ s.fetchWord = some (encode (.jp s.pc)) ∧ s.pc.toNat ≤ 0xFFF := by
  simp [State.atSelfJump, and_assoc]

theorem State.atSelfJump_tick : s.tick.atSelfJump = s.atSelfJump := rfl

theorem step_of_atSelfJump (h : s.atSelfJump = true) : step s = .next s.tick := by
  obtain ⟨ht, hf, hpc⟩ := State.atSelfJump_iff.1 h
  have hwf : (Instr.jp s.pc).wf = true := decide_eq_true hpc
  rw [step_of_decode ht hf (decodeWord_encode hwf), exec_jp]
  rfl

theorem core_run_of_atSelfJump (n : Nat) : ∀ {s : State}, s.atSelfJump = true →
    Sys2Proof.core.run n s = .next (State.tick^[n] s) := by
  induction n with
  | zero => exact fun _ => rfl
  | succ n ih =>
    intro s h
    rw [core_run_succ (step_of_atSelfJump h), Function.iterate_succ_apply]
    exact ih h

theorem atSelfJump_iterate_tick (n : Nat) : (State.tick^[n] s).atSelfJump = s.atSelfJump := by
  induction n with
  | zero => rfl
  | succ n ih => rw [Function.iterate_succ_apply', State.atSelfJump_tick, ih]

theorem iterate_tick_dt (n : Nat) : (State.tick^[n] s).dt.toNat = s.dt.toNat - n := by
  induction n with
  | zero => rfl
  | succ n ih =>
    rw [Function.iterate_succ_apply', State.tick_dt, countDown_toNat, ih]
    omega

theorem iterate_tick_st (n : Nat) : (State.tick^[n] s).st.toNat = s.st.toNat - n := by
  induction n with
  | zero => rfl
  | succ n ih =>
    rw [Function.iterate_succ_apply', State.tick_st, countDown_toNat, ih]
    omega

theorem iterate_tick_sameBut (n : Nat) : SameBut [.dt, .st, .tone] s (State.tick^[n] s) := by
  induction n with
  | zero => exact (SameBut.refl s).mono (List.nil_subset _)
  | succ n ih =>
    rw [Function.iterate_succ_apply']
    exact (ih.trans (tick_sameBut _)).mono (by simp)

theorem State.idle_iff :
    s.idle = true ↔ s.atSelfJump = true ∧ s.dt = 0 ∧ s.st = 0 := by
  simp [State.idle, and_assoc]

/-- With both timers at 0 a tick puts out tone 0 and does nothing else. -/
theorem tick_of_timers_zero (hdt : s.dt = 0) (hst : s.st = 0) : s.tick = s.stayHalted := by
  simp [State.tick, State.stayHalted, countDown, hdt, hst]

/-- The first tick clears the tone, and the state it gives is a fixed point of the tick. -/
theorem iterate_tick_of_timers_zero (hdt : s.dt = 0) (hst : s.st = 0) (n : Nat) :
    State.tick^[n + 1] s = s.stayHalted := by
  rw [Function.iterate_succ_apply, tick_of_timers_zero hdt hst]
  exact Function.iterate_fixed (tick_of_timers_zero (s := s.stayHalted) hdt hst) n

end

/-! ## The obligations -/

/-- Settles O7: `step_of_decode`, outcome by outcome. -/
theorem stepRunsDecodedInstruction : Obligations.StepRunsDecodedInstruction := by
  intro s op i ht hf hd
  rw [step_of_decode ht hf hd]
  refine ⟨fun t h => ?_, fun f h => ?_⟩ <;> rw [h] <;> rfl

/-- Settles O8: the step is `stayHalted`, which writes the tone output alone. -/
theorem haltedStepChangesNothing : Obligations.HaltedStepChangesNothing := fun s h =>
  ⟨s.stayHalted, step_of_halted h, s.stayHalted_tone, stayHalted_sameBut s⟩

/-- Settles O10: both bytes of the word resolve to their address modulo 4096, or the fetch has no
word. -/
theorem fetchIsBigEndianAtPc : Obligations.FetchIsBigEndianAtPc := by
  refine fun s => ⟨fun h => ?_, fun hp hpc ht => ?_⟩
  · have hhi : s.readByte s.pc.toNat = some _ :=
      State.readByte_resolves (h.imp_left (by omega))
    have hlo : s.readByte (s.pc.toNat + 1) = some _ :=
      State.readByte_resolves (h.imp_left (by omega))
    exact ⟨_, State.fetchWord_of_readByte hhi hlo, wordOfBytes_toNat _ _⟩
  · exact step_of_fetch_none ht (State.fetchWord_eq_none.2 ⟨hp, hpc⟩)

/-- Settles O11: both timers count down, and the tone is a test of the sound timer. -/
theorem tickCountsBothTimersDown : Obligations.TickCountsBothTimersDown := fun s =>
  ⟨countDown_toNat s.dt, countDown_toNat s.st, decide_eq_true_iff, tick_sameBut s⟩

/-- Settles O12: of the three ways a step completes only the executed instruction ticks, and the
tick's tone tests the sound timer it finds. -/
theorem toneExactlyWhenSoundTimerRunsOut : Obligations.ToneExactlyWhenSoundTimerRunsOut := by
  intro s t h
  obtain ⟨ht, rfl⟩ | ⟨ht, op, e, hf, hd, rfl⟩ | ⟨ht, op, i, u, hf, hd, hx, rfl⟩ := step_cases h
  · simp [ht]
  · simp [hf, hd]
  · simp [ht, hf, hd, hx]

/-- Settles O13: each step of the run is a tick, and `max dt st` ticks bring both timers to 0. -/
theorem selfJumpReachesIdleFixedPoint : Obligations.SelfJumpReachesIdleFixedPoint := by
  intro s h
  have hjump : (State.tick^[max s.dt.toNat s.st.toNat] s).atSelfJump = true :=
    (atSelfJump_iterate_tick _).trans h
  have hdt : (State.tick^[max s.dt.toNat s.st.toNat] s).dt = 0 := by
    rw [← BitVec.toNat_inj, iterate_tick_dt]
    exact Nat.sub_eq_zero_of_le (le_max_left _ _)
  have hst : (State.tick^[max s.dt.toNat s.st.toNat] s).st = 0 := by
    rw [← BitVec.toNat_inj, iterate_tick_st]
    exact Nat.sub_eq_zero_of_le (le_max_right _ _)
  refine ⟨_, core_run_of_atSelfJump _ h, State.idle_iff.2 ⟨hjump, hdt, hst⟩,
    iterate_tick_sameBut _, fun n => ⟨_, core_run_of_atSelfJump (n + 1) hjump, ?_⟩⟩
  rw [iterate_tick_of_timers_zero hdt hst]
  exact ⟨rfl, stayHalted_sameBut _⟩

/-- Settles O23: only the halt of a step writes `terminate`, and the halt is on an invalid word. -/
theorem terminateSetExactlyByInvalidWord : Obligations.TerminateSetExactlyByInvalidWord := by
  intro s t h
  obtain ⟨ht, rfl⟩ | ⟨ht, op, e, hf, hd, rfl⟩ | ⟨ht, op, i, u, hf, hd, hx, rfl⟩ := step_cases h
  · simp [ht]
  · obtain rfl := decodeWord_error hd
    simp [hf, hd]
  · simp [ht, hf, hd, exec_keeps_terminate hx]

end Sys2Proof.Machine

/-! Memory: what reaches it, the canonical form every command keeps, and one byte of it
(20_memory.md sections 1 to 3). -/

namespace Sys2Proof.Machine

section

variable {s : State}

/-! ## The forms that do not reach memory -/

/-- The four forms set apart are the ones whose meaning reads or writes a byte; every other form
takes the same branch to the same outcome over another memory. -/
theorem exec_over_memory {i : Instr} {m : Memory} (hdrw : ∀ x y n, i ≠ .drw x y n)
    (hblock : ∀ x, i ≠ .ldB x ∧ i ≠ .storeRegs x ∧ i ≠ .loadRegs x) :
    exec i { s with mem := m } = mapNext (fun t => { t with mem := m }) (exec i s) := by
  cases i with
  | drw x y n => exact absurd rfl (hdrw x y n)
  | ldB x => exact absurd rfl (hblock x).1
  | storeRegs x => exact absurd rfl (hblock x).2.1
  | loadRegs x => exact absurd rfl (hblock x).2.2
  | ret =>
    rcases Nat.eq_zero_or_pos s.sp.val with h | h
    · rw [execRet_empty (Fin.ext h), execRet_empty (s := { s with mem := m }) (Fin.ext h)]
      rfl
    · rw [execRet_pops h, execRet_pops (s := { s with mem := m }) h]
      rfl
  | call nnn =>
    by_cases h : s.sp = Fin.last 16
    · rw [execCall_full h, execCall_full (s := { s with mem := m }) h]
      rfl
    · have hlt : s.sp.val < 16 := Fin.val_lt_last h
      rw [execCall_pushes hlt, execCall_pushes (s := { s with mem := m }) hlt]
      rfl
  | skp x =>
    cases h : keyOf (s.getV x) with
    | none =>
      rw [execSkp_noKey h, execSkp_noKey (s := { s with mem := m }) h]
      rfl
    | some k =>
      rw [execSkp_key h, execSkp_key (s := { s with mem := m }) h]
      rfl
  | sknp x =>
    cases h : keyOf (s.getV x) with
    | none =>
      rw [execSknp_noKey h, execSknp_noKey (s := { s with mem := m }) h]
      rfl
    | some k =>
      rw [execSknp_key h, execSknp_key (s := { s with mem := m }) h]
      rfl
  | ldVxK x =>
    cases h : s.pressedKeys with
    | nil =>
      rw [execLdVxK_waits h, execLdVxK_waits (s := { s with mem := m }) h]
      rfl
    | cons k ks =>
      rw [execLdVxK_takes h, execLdVxK_takes (s := { s with mem := m }) h]
      rfl
  | _ => rfl

/-- Memory as the list it is, where a frame compares it byte by byte: `exec_over_memory` with the
memory of the state itself. -/
theorem exec_unreached_keeps_mem {i : Instr} {t : State} (hdrw : ∀ x y n, i ≠ .drw x y n)
    (hblock : ∀ x, i ≠ .ldB x ∧ i ≠ .storeRegs x ∧ i ≠ .loadRegs x) (h : exec i s = .next t) :
    t.mem = s.mem := by
  have hsame : exec i s = mapNext (fun t => { t with mem := s.mem }) (exec i s) :=
    exec_over_memory hdrw hblock
  rw [h] at hsame
  have ht : t = { t with mem := s.mem } := Host.Outcome.next.inj hsame
  rw [ht]

/-! ## The canonical form -/

theorem mem_mem_writes_iff {i : Instr} :
    Part.mem ∈ i.writes ↔ ∃ x, i = .ldB x ∨ i = .storeRegs x := by
  cases i <;> simp [Instr.writes]

theorem params_notMem_writes (i : Instr) : Part.params ∉ i.writes := by
  cases i <;> simp [Instr.writes]

theorem exec_keeps_mem {i : Instr} {t : State} (hw : Part.mem ∉ i.writes)
    (h : exec i s = .next t) : t.mem = s.mem := by
  cases i with
  | ldB | storeRegs => simp [Instr.writes] at hw
  | drw x y n =>
    obtain ⟨bs, -, rfl⟩ := execDrw_next h
    rfl
  | loadRegs x =>
    obtain ⟨bs, -, rfl⟩ := execLoadRegs_next h
    rfl
  | _ => exact exec_unreached_keeps_mem (by simp) (by simp) h

theorem storeAtI_keeps_wf {bs : List Byte} {t : State} (hs : s.wf) (h : storeAtI bs s = .next t) :
    t.wf := by
  obtain ⟨u, hu, rfl⟩ := storeAtI_next h
  obtain ⟨-, hwf, -⟩ := State.writeBytes_frame bs hu
  exact hwf hs

theorem exec_keeps_wf {i : Instr} {t : State} (hs : s.wf) (h : exec i s = .next t) : t.wf := by
  by_cases hw : Part.mem ∈ i.writes
  · obtain ⟨x, rfl | rfl⟩ := mem_mem_writes_iff.1 hw <;> exact storeAtI_keeps_wf hs h
  · have hp : t.params = s.params := exec_sameBut_writes h .params (params_notMem_writes i)
    rw [State.wf, hp, exec_keeps_mem hw h]
    exact hs

theorem step_keeps_wf {t : State} (hs : s.wf) (h : step s = .next t) : t.wf := by
  obtain ⟨-, rfl⟩ | ⟨-, -, -, -, -, rfl⟩ | ⟨-, -, i, u, -, -, hx, rfl⟩ := step_cases h
  · exact hs
  · exact hs
  · have hu : u.wf := exec_keeps_wf hs hx
    exact hu

theorem resetWith_wf (p : Config.Params) : (State.resetWith p).wf := Memory.wf_nil p

/-! ## The host's load -/

theorem hostLoad_fits {b : List Byte} (h : b.length ≤ 3584) : hostLoad b s =
    .next { s with mem := Memory.writeAll s.params s.mem 0x200 b } := if_pos h

theorem hostLoad_tooLong {b : List Byte} (h : 3584 < b.length) :
    hostLoad b s = .refused .loadTooLong := if_neg (Nat.not_le_of_lt h)

theorem hostLoad_keeps_wf {b : List Byte} {t : State} (hs : s.wf) (h : hostLoad b s = .next t) :
    t.wf := by
  rcases Nat.lt_or_ge 3584 b.length with hlen | hlen
  · rw [hostLoad_tooLong hlen] at h
    cases h
  · rw [hostLoad_fits hlen] at h
    cases h
    exact Memory.wf_writeAll b hs (by omega)

/-- The bytes of a load, and every other byte as it was. -/
theorem memByte_load (s : State) (b : List Byte) (q : Nat) :
    State.memByte { s with mem := Memory.writeAll s.params s.mem 0x200 b } q =
      if h : 0x200 ≤ q ∧ q < 0x200 + b.length then b[q - 0x200]'(by omega) else s.memByte q :=
  Memory.read_writeAll ..

theorem memByte_load_inside (s : State) {b : List Byte} {i : Nat} (h : i < b.length) :
    State.memByte { s with mem := Memory.writeAll s.params s.mem 0x200 b } (0x200 + i) = b[i] := by
  rw [memByte_load, dif_pos (by omega)]
  simp

theorem memByte_load_outside (s : State) {b : List Byte} {q : Nat}
    (h : q < 0x200 ∨ 0x200 + b.length ≤ q) :
    State.memByte { s with mem := Memory.writeAll s.params s.mem 0x200 b } q = s.memByte q := by
  rw [memByte_load, dif_neg (by omega)]

theorem session_reset_load (p : Config.Params) {b : List Byte} (h : b.length ≤ 3584) :
    session p [.reset, .load b] = .next { State.resetWith p with
      mem := Memory.writeAll p [] 0x200 b } := by
  simp only [session, runCommands, runCommand, hostLoad_fits h]
  rfl

end

/-! ## The obligations -/

/-- Settles O14: the steps that write memory write it through `Memory.write`, which keeps the
canonical form; every other step keeps the list itself. -/
theorem stepKeepsMemoryCanonical : Obligations.StepKeepsMemoryCanonical := fun _ _ =>
  step_keeps_wf

/-- Settles O15: reset memory lists nothing. -/
theorem resetMemoryIsCanonical : Obligations.ResetMemoryIsCanonical := fun p =>
  ⟨resetWith_wf p, resetWith_wf Config.defaultParams⟩

/-- Settles O16: reset lists nothing, a load stays below 4096, a step is O14, and the other two
commands leave memory alone. -/
theorem hostCommandsKeepMemoryCanonical : Obligations.HostCommandsKeepMemoryCanonical := by
  intro c s t hs h
  cases c with
  | reset =>
    cases h
    exact resetWith_wf s.params
  | load b => exact hostLoad_keeps_wf hs h
  | step => exact step_keeps_wf hs h
  | setKey k level =>
    cases h
    exact hs
  | clearDirty =>
    cases h
    exact hs

/-- Settles O17: `exec_sameBut_writes`. -/
theorem instructionsWriteOnlyNamedState : Obligations.InstructionsWriteOnlyNamedState :=
  fun _ _ _ => exec_sameBut_writes

/-- Settles O24: `exec_over_memory`. -/
theorem otherFormsDoNotReachMemory : Obligations.OtherFormsDoNotReachMemory :=
  fun _ _ _ => exec_over_memory

/-- Settles O27: the resolved address is the one `Memory.write` changes, and the parameters that
resolve it are not written. -/
theorem byteWriteChangesOneByte : Obligations.ByteWriteChangesOneByte := by
  intro s t a v h
  obtain ⟨q, hq, rfl⟩ := State.writeByte_eq_some.1 h
  refine ⟨q, phys_lt hq, hq, ?_, fun r hr => ?_, sameBut_mem s _⟩
  · simp only [State.readByte, hq, Option.map_some, State.memByte_write, if_true]
  · rw [State.memByte_write, if_neg hr]

/-- Settles O28: `phys` policy by policy, for the read and for the write. -/
theorem physResolvesByPolicy : Obligations.PhysResolvesByPolicy := by
  refine fun s a v => ⟨s.readByte_inside, fun ha hp => ?_, fun _ hp => ?_⟩
  · exact ⟨State.readByte_eq_none.2 ⟨hp, ha⟩, State.writeByte_eq_none.2 ⟨hp, ha⟩⟩
  · simp only [State.readByte, State.writeByte, hp, phys_wrap12, Nat.mod_mod, Option.map_some,
      and_self]

/-- Settles O56: every field but memory and the draw counter is a constant of `State.resetWith`,
and its memory, which lists nothing, reads as its reset contents. -/
theorem resetGivesEveryFieldItsValue : Obligations.ResetGivesEveryFieldItsValue := by
  intro s
  refine ⟨fun q hq => dif_pos hq, fun q hq => dif_neg (Nat.not_lt_of_le hq), fun r => ?_,
    fun j hj => ?_, fun k => ?_, Display.pixel_blank, rfl, rfl, rfl, rfl, rfl, rfl, rfl, rfl⟩
  all_goals exact Vector.getElem_replicate _

/-- Settles O57: a load is one block copy into memory. -/
theorem loadCopiesProgramBytes : Obligations.LoadCopiesProgramBytes := fun _ s =>
  ⟨fun h => ⟨_, hostLoad_fits h, fun _ => memByte_load_inside s, fun _ => memByte_load_outside s,
    sameBut_mem s _⟩, hostLoad_tooLong⟩

/-- Settles O58: `session` looks at its first command. -/
theorem resetIsRequiredFirst : Obligations.ResetIsRequiredFirst := by
  intro p c cs
  refine ⟨rfl, fun hc => ?_⟩
  cases c with
  | reset => exact absurd rfl hc
  | _ => rfl

/-- Settles O59: the first two bytes of the load lie at 0x200 and 0x201, where reset points `pc`. -/
theorem loadedProgramIsFetchedFirst : Obligations.LoadedProgramIsFetchedFirst := by
  intro p b hlen h
  have hhi := memByte_load_inside (State.resetWith p) (show 0 < b.length by omega)
  have hlo := memByte_load_inside (State.resetWith p) (show 1 < b.length by omega)
  refine ⟨_, wordOfBytes b[0] b[1], session_reset_load p hlen, rfl,
    State.fetchWord_of_readByte ?_ ?_, wordOfBytes_toNat _ _⟩
  · exact (State.readByte_inside _ (show 0x200 ≤ 0xFFF by decide)).trans (congrArg some hhi)
  · exact (State.readByte_inside _ (show 0x201 ≤ 0xFFF by decide)).trans (congrArg some hlo)

end Sys2Proof.Machine

/-! The model faults (60_exceptions.md R265), and the transfers of control that can raise one
(40_dispatch.md R131 to R138, 44_input_timers.md R231, R232). -/

namespace Sys2Proof.Machine

section

variable {s : State}

/-! ## Where an instruction faults -/

theorem State.outOfRange_iff {n : Nat} :
    s.outOfRange n = true ↔ s.params.addrPolicy = .fault ∧ 0 < n ∧ 0xFFF < s.I.toNat + (n - 1) := by
  simp [State.outOfRange, and_assoc]

theorem State.readBytes_eq_none_iff_outOfRange {n : Nat} :
    s.readBytes (s.effAddr 0) n = none ↔ s.outOfRange n = true :=
  (State.readBytes_eq_none n).trans State.outOfRange_iff.symm

theorem State.writeBytes_eq_none_iff_outOfRange {bs : List Byte} :
    s.writeBytes (s.effAddr 0) bs = none ↔ s.outOfRange bs.length = true :=
  (State.writeBytes_eq_none bs).trans State.outOfRange_iff.symm

theorem storeAtI_faults {bs : List Byte} (h : s.outOfRange bs.length = true) :
    storeAtI bs s = .fault .addressOutOfRange :=
  storeAtI_outside (State.writeBytes_eq_none_iff_outOfRange.2 h)

theorem State.readBytes_inRange {n : Nat} (h : s.outOfRange n = false) :
    ∃ bs, s.readBytes (s.effAddr 0) n = some bs :=
  Option.ne_none_iff_exists'.1 fun hnone =>
    Bool.false_ne_true (h.symm.trans (State.readBytes_eq_none_iff_outOfRange.1 hnone))

theorem State.writeBytes_inRange {bs : List Byte} (h : s.outOfRange bs.length = false) :
    ∃ u, s.writeBytes (s.effAddr 0) bs = some u :=
  Option.ne_none_iff_exists'.1 fun hnone =>
    Bool.false_ne_true (h.symm.trans (State.writeBytes_eq_none_iff_outOfRange.1 hnone))

theorem storeAtI_completes {bs : List Byte} (h : s.outOfRange bs.length = false) :
    ∃ t, storeAtI bs s = .next t :=
  (State.writeBytes_inRange h).imp' State.advance fun _ => storeAtI_stores

theorem exec_of_faultOf_some {i : Instr} {f : Fault} (h : i.faultOf s = some f) :
    exec i s = .fault f := by
  cases i with
  | ret =>
    obtain ⟨hsp, rfl⟩ := Option.ite_some_none_eq_some.1 h
    exact execRet_empty hsp
  | call nnn =>
    obtain ⟨hsp, rfl⟩ := Option.ite_some_none_eq_some.1 h
    exact execCall_full hsp
  | drw x y n =>
    obtain ⟨hout, rfl⟩ := Option.ite_some_none_eq_some.1 h
    exact execDrw_outside (State.readBytes_eq_none_iff_outOfRange.2 hout)
  | loadRegs x =>
    obtain ⟨hout, rfl⟩ := Option.ite_some_none_eq_some.1 h
    exact execLoadRegs_outside (State.readBytes_eq_none_iff_outOfRange.2 hout)
  | ldB x =>
    obtain ⟨hout, rfl⟩ := Option.ite_some_none_eq_some.1 h
    exact storeAtI_faults hout
  | storeRegs x =>
    obtain ⟨hout, rfl⟩ := Option.ite_some_none_eq_some.1 h
    exact storeAtI_faults ((s.regsUpTo_length x).symm ▸ hout)
  | skp x =>
    obtain ⟨hkey, rfl⟩ := Option.ite_some_none_eq_some.1 h
    exact execSkp_noKey (keyOf_eq_none.2 hkey)
  | sknp x =>
    obtain ⟨hkey, rfl⟩ := Option.ite_some_none_eq_some.1 h
    exact execSknp_noKey (keyOf_eq_none.2 hkey)
  | _ => cases h

theorem exec_of_faultOf_none {i : Instr} (h : i.faultOf s = none) : ∃ t, exec i s = .next t := by
  cases i with
  | ret =>
    have hsp : s.sp ≠ 0 := by simpa [Instr.faultOf] using h
    exact ⟨_, execRet_pops (Fin.pos_iff_ne_zero.2 hsp)⟩
  | call nnn =>
    have hsp : s.sp ≠ Fin.last 16 := by simpa [Instr.faultOf] using h
    exact ⟨_, execCall_pushes (Fin.val_lt_last hsp)⟩
  | drw x y n =>
    have hin : s.outOfRange n = false := by simpa [Instr.faultOf] using h
    exact (State.readBytes_inRange hin).imp' _ fun _ => execDrw_draws
  | loadRegs x =>
    have hin : s.outOfRange (x.val + 1) = false := by simpa [Instr.faultOf] using h
    exact (State.readBytes_inRange hin).imp' _ fun _ => execLoadRegs_loads
  | ldB x =>
    have hin : s.outOfRange 3 = false := by simpa [Instr.faultOf] using h
    exact storeAtI_completes hin
  | storeRegs x =>
    have hin : s.outOfRange (x.val + 1) = false := by simpa [Instr.faultOf] using h
    exact storeAtI_completes ((s.regsUpTo_length x).symm ▸ hin)
  | skp x =>
    have hkey : keyOf (s.getV x) ≠ none := by simpa [Instr.faultOf, keyOf_eq_none] using h
    exact (Option.ne_none_iff_exists'.1 hkey).imp' _ fun _ => execSkp_key
  | sknp x =>
    have hkey : keyOf (s.getV x) ≠ none := by simpa [Instr.faultOf, keyOf_eq_none] using h
    exact (Option.ne_none_iff_exists'.1 hkey).imp' _ fun _ => execSknp_key
  | ldVxK x =>
    cases hk : s.pressedKeys with
    | nil => exact ⟨_, execLdVxK_waits hk⟩
    | cons k ks => exact ⟨_, execLdVxK_takes hk⟩
  | _ => exact ⟨_, rfl⟩

theorem exec_eq_fault_iff {i : Instr} {f : Fault} : exec i s = .fault f ↔ i.faultOf s = some f := by
  refine ⟨fun h => ?_, exec_of_faultOf_some⟩
  cases hf : i.faultOf s with
  | none =>
    obtain ⟨t, ht⟩ := exec_of_faultOf_none hf
    rw [h] at ht
    cases ht
  | some g =>
    rw [exec_of_faultOf_some hf] at h
    cases h
    rfl

theorem exec_ne_refused (i : Instr) (r : Refusal) : exec i s ≠ .refused r := by
  intro h
  cases hf : i.faultOf s with
  | none =>
    obtain ⟨t, ht⟩ := exec_of_faultOf_none hf
    rw [h] at ht
    cases ht
  | some g =>
    rw [exec_of_faultOf_some hf] at h
    cases h

theorem addrPolicy_of_faultOf_address {i : Instr} (h : i.faultOf s = some .addressOutOfRange) :
    s.params.addrPolicy = .fault := by
  cases i with
  | drw | ldB | storeRegs | loadRegs =>
    exact (State.outOfRange_iff.1 (Option.ite_some_none_eq_some.1 h).1).1
  | ret | call | skp | sknp => cases (Option.ite_some_none_eq_some.1 h).2
  | _ => cases h

/-- A step faults in its fetch or in its instruction. -/
theorem step_fault_cases {f : Fault} (h : step s = .fault f) :
    (s.fetchWord = none ∧ f = .addressOutOfRange) ∨ ∃ i, exec i s = .fault f := by
  cases ht : s.terminate with
  | true =>
    rw [step_of_halted ht] at h
    cases h
  | false =>
    cases hf : s.fetchWord with
    | none =>
      rw [step_of_fetch_none ht hf] at h
      cases h
      exact .inl ⟨rfl, rfl⟩
    | some op =>
      cases hd : decodeWord op with
      | error e =>
        rw [step_of_decode_error ht hf hd] at h
        cases h
      | ok i =>
        rw [step_of_decode ht hf hd] at h
        cases hx : exec i s with
        | fault g =>
          rw [hx] at h
          cases h
          exact .inr ⟨i, hx⟩
        | next | refused =>
          rw [hx] at h
          cases h

/-! ## Transfers of control -/

/-- A part that was written and came out as it was needs no place in a frame. -/
theorem SameBut.of_same {p : Part} {changed : List Part} {s t : State}
    (h : SameBut (p :: changed) s t) (hp : p.same s t) : SameBut changed s t := by
  intro q hq
  by_cases hqp : q = p
  · exact hqp ▸ hp
  · exact h q (fun hmem => (List.mem_cons.1 hmem).elim hqp hq)

theorem exec_seReg (x y : Reg) (s : State) :
    exec (.seReg x y) s = .next (s.skipIf (s.getV x == s.getV y)) := rfl

theorem exec_sneReg (x y : Reg) (s : State) :
    exec (.sneReg x y) s = .next (s.skipIf (s.getV x != s.getV y)) := rfl

theorem exec_jpV0 (nnn : Word) (s : State) :
    exec (.jpV0 nnn) s = .next (s.setPc (nnn + zext16 (s.getV 0))) := rfl

theorem zext16_toNat (b : Byte) : (zext16 b).toNat = b.toNat :=
  BitVec.toNat_setWidth_of_le (by decide)

/-- A 12-bit address and a byte have no 16-bit carry. -/
theorem add_zext16_toNat {nnn : Word} (h : nnn.toNat ≤ 0xFFF) (b : Byte) :
    (nnn + zext16 b).toNat = nnn.toNat + b.toNat := by
  have hb := b.isLt
  rw [BitVec.toNat_add, zext16_toNat, Nat.mod_eq_of_lt (by omega)]

end

/-! ## The obligations -/

/-- Settles O25: the spec's table decides the outcome, and each form's branch follows it. -/
theorem modelFaultsExactlyWhereListed : Obligations.ModelFaultsExactlyWhereListed := fun i _ =>
  ⟨fun _ => exec_eq_fault_iff, exec_of_faultOf_none, exec_ne_refused i⟩

/-- Settles O26: the fetch and every row of the fault table name `AddrPolicy = Fault`. -/
theorem wrap12NeverFaultsOnAddress : Obligations.Wrap12NeverFaultsOnAddress := by
  intro s hwrap h
  have hfault : s.params.addrPolicy = .fault := by
    obtain ⟨hf, -⟩ | ⟨i, hx⟩ := step_fault_cases h
    · exact (State.fetchWord_eq_none.1 hf).1
    · exact addrPolicy_of_faultOf_address (exec_eq_fault_iff.1 hx)
  rw [hwrap] at hfault
  cases hfault

/-- Settles O31: the jump is one write of `pc`, with a sum that has no 16-bit carry. -/
theorem indexedJumpAddsV0 : Obligations.IndexedJumpAddsV0 := fun nnn s hwf =>
  ⟨_, exec_jpV0 nnn s, add_zext16_toNat (of_decide_eq_true hwf) (s.getV 0), setPc_sameBut s _⟩

/-- Settles O32: the two branches of the push. -/
theorem callPushesItsOwnAddress : Obligations.CallPushesItsOwnAddress := by
  refine fun nnn s => ⟨fun hsp => ⟨_, execCall_pushes hsp, ?_, rfl, rfl, fun j hj hne => ?_,
    exec_sameBut_writes (execCall_pushes hsp)⟩, execCall_full⟩
  · exact Vector.getElem_set_self hsp
  · exact Vector.getElem_set_ne hsp hj hne.symm

/-- Settles O33: the two branches of the pop. -/
theorem returnPopsAndResumesAfterCall : Obligations.ReturnPopsAndResumesAfterCall := fun _ =>
  ⟨fun hsp => ⟨_, execRet_pops hsp, rfl, rfl, exec_sameBut_writes (execRet_pops hsp)⟩,
    execRet_empty⟩

/-- Settles O36: both forms are `skipIf`, taken on equality by 5XY0 and on inequality by 9XY0. -/
theorem registerSkips : Obligations.RegisterSkips := by
  refine fun x y s => ⟨⟨_, exec_seReg x y s, skipIf_sameBut s _, fun heq => ?_, fun hne => ?_,
    fun hxy => ?_⟩, ⟨_, exec_sneReg x y s, skipIf_sameBut s _, fun hne => ?_, fun heq => ?_,
    fun hxy => ?_⟩⟩
  · exact skipIf_taken_pc (beq_iff_eq.2 heq)
  · exact skipIf_not_taken_pc (beq_false_of_ne hne)
  · exact skipIf_taken_pc (beq_iff_eq.2 (congrArg s.getV hxy))
  · exact skipIf_taken_pc (bne_iff_ne.2 hne)
  · exact skipIf_not_taken_pc (bne_eq_false_iff_eq.2 heq)
  · exact skipIf_not_taken_pc (bne_eq_false_iff_eq.2 (congrArg s.getV hxy))

/-- Settles O53: the byte names a key or none, and the skip is on that key's level. -/
theorem keySkips : Obligations.KeySkips := by
  refine fun x s => ⟨fun k hk => ?_, fun hk => ?_⟩
  · have hkey : keyOf (s.getV x) = some k := keyOf_eq_some.2 hk
    refine ⟨⟨_, execSkp_key hkey, skipIf_sameBut s _, s.skipIf_pc _⟩,
      ⟨_, execSknp_key hkey, skipIf_sameBut s _, ?_⟩⟩
    cases hp : s.pressed k <;> simp
  · have hkey : keyOf (s.getV x) = none := keyOf_eq_none.2 hk
    exact ⟨execSkp_noKey hkey, execSknp_noKey hkey⟩

/-- Settles O34: the return pops the slot the call pushed, so its depth is the one before the
call. -/
theorem callThenReturnResumesAfterCall : Obligations.CallThenReturnResumesAfterCall := by
  intro s t op op' nnn ht hsp hf hd hstep hf' hd'
  obtain ⟨c, hcall, hslot, hcsp, -, hother, hcframe⟩ := (callPushesItsOwnAddress nnn s).1 hsp
  rw [step_of_decode ht hf hd, hcall] at hstep
  cases hstep
  have hct : c.tick.terminate = false := (exec_keeps_terminate hcall).trans ht
  have hpos : 0 < c.tick.sp.val := hcsp ▸ Nat.succ_pos _
  obtain ⟨r, hret, hrsp, hrpc, hrframe⟩ := (returnPopsAndResumesAfterCall c.tick).1 hpos
  have hstack : r.stack = c.stack := hrframe .stack (by decide)
  have hdepth : r.sp = s.sp := Fin.ext (hrsp.trans (Nat.sub_eq_of_eq_add hcsp))
  refine ⟨r.tick, ?_, ?_, ?_, fun j hj hne => ?_⟩
  · rw [step_of_decode hct hf' hd', hret]
    rfl
  · refine hrpc.trans (congrArg (· + 2) ?_)
    simpa only [State.tick_stack, State.tick_sp, hcsp, Nat.add_sub_cancel] using hslot
  · have hframe := hcframe.trans ((tick_sameBut c).trans (hrframe.trans (tick_sameBut r)))
    exact SameBut.of_same (p := .sp) (hframe.mono (by simp)) hdepth
  · simpa only [State.tick_stack, hstack] using hother j hj hne

end Sys2Proof.Machine

/-! Arithmetic, logic, random bytes and timers: the forms that write one register, a register and
the flag, or a timer (41_arith.md R160 to R173, 42_memory_ops.md R192, 44_input_timers.md R233
to R239). -/

namespace Sys2Proof.Machine

/-! ## One equation per form -/

section

variable (x y : Reg) (nn : Byte) (s : State)

theorem exec_orReg : exec (.orReg x y) s = .next (s.setV x (s.getV x ||| s.getV y)).advance := rfl

theorem exec_andReg : exec (.andReg x y) s = .next (s.setV x (s.getV x &&& s.getV y)).advance := rfl

theorem exec_xorReg : exec (.xorReg x y) s = .next (s.setV x (s.getV x ^^^ s.getV y)).advance := rfl

theorem exec_addReg : exec (.addReg x y) s = .next
    (s.setFlagThenV (carryFlag (s.getV x) (s.getV y)) x (s.getV x + s.getV y)).advance := rfl

theorem exec_subReg : exec (.subReg x y) s = .next
    (s.setFlagThenV (notBorrowFlag (s.getV x) (s.getV y)) x (s.getV x - s.getV y)).advance := rfl

theorem exec_subn : exec (.subn x y) s = .next
    (s.setFlagThenV (notBorrowFlag (s.getV y) (s.getV x)) x (s.getV y - s.getV x)).advance := rfl

theorem exec_shr : exec (.shr x y) s = .next
    (s.setFlagThenV (shiftedOutRight (s.getV x)) x (s.getV x >>> 1)).advance := rfl

theorem exec_shl : exec (.shl x y) s = .next
    (s.setFlagThenV (shiftedOutLeft (s.getV x)) x (s.getV x <<< 1)).advance := rfl

theorem exec_rnd : exec (.rnd x nn) s = .next
    (s.drawn.setV x (Config.drawByte s.draws &&& nn)).advance := rfl

theorem exec_addI : exec (.addI x) s = .next (s.setI (s.I + zext16 (s.getV x))).advance := rfl

theorem exec_ldDtVx : exec (.ldDtVx x) s = .next (s.setDt (s.getV x)).advance := rfl

theorem exec_ldStVx : exec (.ldStVx x) s = .next (s.setSt (s.getV x)).advance := rfl

/-! ## What the updates do -/

/-- What the forms that write the flag and then a register do, whatever bytes they write. -/
theorem setFlagThenV_advance_spec (f b : Byte) :
    (s.setFlagThenV f x b).advance.getV x = b ∧
      (x ≠ 0xF → (s.setFlagThenV f x b).advance.getV 0xF = f) ∧
      (∀ r, r ≠ x → r ≠ 0xF → (s.setFlagThenV f x b).advance.getV r = s.getV r) ∧
      (s.setFlagThenV f x b).advance.pc = s.pc + 2 ∧
      SameBut [.V, .pc] s (s.setFlagThenV f x b).advance := by
  simp only [State.advance_getV, State.getV_setFlagThenV]
  refine ⟨if_pos trivial, fun hx => ?_, fun r hx hF => ?_, rfl, ?_⟩
  · rw [if_neg hx.symm, if_pos trivial]
  · rw [if_neg hx, if_neg hF]
  · exact (sameBut_V s _).trans (advance_sameBut _)

/-- What the forms that draw and then write one register do, whatever byte they write. -/
theorem drawn_setV_advance_spec (b : Byte) :
    (s.drawn.setV x b).advance.getV x = b ∧
      (∀ r, r ≠ x → (s.drawn.setV x b).advance.getV r = s.getV r) ∧
      (s.drawn.setV x b).advance.pc = s.pc + 2 ∧
      SameBut [.V, .draws, .pc] s (s.drawn.setV x b).advance := by
  obtain ⟨hx, hother, hpc, hframe⟩ := setV_advance_spec s.drawn x b
  exact ⟨hx, hother, hpc, ((drawn_sameBut s).trans hframe).mono (by simp)⟩

end

/-! ## The bytes they write -/

section

variable (a b : Byte)

theorem carryFlag_eq : carryFlag a b = if a.toNat + b.toNat > 255 then 1 else 0 := by
  simp [carryFlag, flagByte]

theorem notBorrowFlag_eq : notBorrowFlag a b = if b.toNat > a.toNat then 0 else 1 := by
  by_cases h : b.toNat > a.toNat <;> simp [notBorrowFlag, flagByte, h]

theorem byte_sub_toNat : (a - b).toNat = (a.toNat + 256 - b.toNat) % 256 := by
  have hb := b.isLt
  rw [BitVec.toNat_sub]
  omega

theorem shiftedOutRight_toNat : (shiftedOutRight a).toNat = a.toNat % 2 := by
  rw [shiftedOutRight, BitVec.toNat_and]
  exact Nat.and_one_is_mod a.toNat

theorem shiftedOutLeft_toNat : (shiftedOutLeft a).toNat = a.toNat / 128 := by
  have ha := a.isLt
  rw [shiftedOutLeft, BitVec.toNat_and, BitVec.toNat_ushiftRight, Nat.shiftRight_eq_div_pow]
  refine (Nat.and_one_is_mod _).trans ?_
  omega

theorem and_and_not_eq_zero : a &&& b &&& ~~~b = 0 := by
  rw [BitVec.and_assoc, BitVec.and_not_self]
  exact BitVec.and_zero

end

/-! ## The obligations -/

/-- Settles O39: each form writes one register, with the bitwise operation. -/
theorem logicForms : Obligations.LogicForms := by
  intro x y s c hc
  simp only [List.mem_cons, List.not_mem_nil, or_false] at hc
  rcases hc with rfl | rfl | rfl
  · obtain ⟨hx, hframe⟩ := setV_advance_spec s x (s.getV x ||| s.getV y)
    refine ⟨_, exec_orReg x y s, fun b _ => ?_, hframe⟩
    rw [hx]
    exact BitVec.getLsbD_or
  · obtain ⟨hx, hframe⟩ := setV_advance_spec s x (s.getV x &&& s.getV y)
    refine ⟨_, exec_andReg x y s, fun b _ => ?_, hframe⟩
    rw [hx]
    exact BitVec.getLsbD_and
  · obtain ⟨hx, hframe⟩ := setV_advance_spec s x (s.getV x ^^^ s.getV y)
    refine ⟨_, exec_xorReg x y s, fun b _ => ?_, hframe⟩
    rw [hx]
    exact BitVec.getLsbD_xor

/-- Settles O40: the flag is the carry of the sum that is then written. -/
theorem addWithCarry : Obligations.AddWithCarry := by
  intro x y s
  obtain ⟨hx, hflag, hframe⟩ :=
    setFlagThenV_advance_spec x s (carryFlag (s.getV x) (s.getV y)) (s.getV x + s.getV y)
  refine ⟨_, exec_addReg x y s, ?_, fun h => ?_, hframe⟩
  · rw [hx]
    exact BitVec.toNat_add (s.getV x) (s.getV y)
  · rw [hflag h, carryFlag_eq]

/-- Settles O41: both forms write the flag of a difference and then the difference. -/
theorem subtractionsWithNotBorrow : Obligations.SubtractionsWithNotBorrow := by
  refine fun x y s => ⟨?_, ?_⟩
  · obtain ⟨hx, hflag, hframe⟩ :=
      setFlagThenV_advance_spec x s (notBorrowFlag (s.getV x) (s.getV y)) (s.getV x - s.getV y)
    refine ⟨_, exec_subReg x y s, ?_, fun h => ?_, hframe⟩
    · rw [hx, byte_sub_toNat]
    · rw [hflag h, notBorrowFlag_eq]
  · obtain ⟨hx, hflag, hframe⟩ :=
      setFlagThenV_advance_spec x s (notBorrowFlag (s.getV y) (s.getV x)) (s.getV y - s.getV x)
    refine ⟨_, exec_subn x y s, ?_, fun h => ?_, hframe⟩
    · rw [hx, byte_sub_toNat]
    · rw [hflag h, notBorrowFlag_eq]

/-- Settles O42: both forms write the bit shifted out and then the shifted byte, and name `V[X]`
alone. -/
theorem shiftsByOneInPlace : Obligations.ShiftsByOneInPlace := by
  refine fun x y s => ⟨?_, ?_, fun z => ⟨rfl, rfl⟩⟩
  · obtain ⟨hx, hflag, hframe⟩ :=
      setFlagThenV_advance_spec x s (shiftedOutRight (s.getV x)) (s.getV x >>> 1)
    refine ⟨_, exec_shr x y s, ?_, fun h => ?_, hframe⟩
    · rw [hx, BitVec.toNat_ushiftRight, Nat.shiftRight_eq_div_pow, Nat.pow_one]
    · rw [hflag h, shiftedOutRight_toNat]
  · obtain ⟨hx, hflag, hframe⟩ :=
      setFlagThenV_advance_spec x s (shiftedOutLeft (s.getV x)) (s.getV x <<< 1)
    refine ⟨_, exec_shl x y s, ?_, fun h => ?_, hframe⟩
    · rw [hx, BitVec.toNat_shiftLeft, Nat.shiftLeft_eq, Nat.pow_one]
    · rw [hflag h, shiftedOutLeft_toNat]

/-- Settles O43: CXNN counts a draw and writes one register, with the masked byte. -/
theorem randomByteIsMaskedDraw : Obligations.RandomByteIsMaskedDraw := by
  intro x nn s
  obtain ⟨hx, hframe⟩ := drawn_setV_advance_spec x s (Config.drawByte s.draws &&& nn)
  refine ⟨_, exec_rnd x nn s, hx, ?_, rfl, hframe⟩
  rw [hx]
  exact and_and_not_eq_zero _ nn

/-- Settles O45: FX1E writes the address register, with the 16-bit sum. -/
theorem addToAddressRegister : Obligations.AddToAddressRegister := by
  intro x s
  obtain ⟨hI, hframe⟩ := setI_advance_spec s (s.I + zext16 (s.getV x))
  refine ⟨_, exec_addI x s, ?_, hframe⟩
  rw [hI, BitVec.toNat_add, zext16_toNat]

/-- Settles O54: each form is one write, and the tick counts down what it left. -/
theorem timerReadsAndWrites : Obligations.TimerReadsAndWrites := by
  refine fun x s => ⟨?_, ?_, ?_⟩
  · obtain ⟨hx, hother, hpc, hframe⟩ := setV_advance_spec s x s.dt
    exact ⟨_, exec_ldVxDt x, hx, hother, hpc, hframe, hx, countDown_toNat s.dt⟩
  · exact ⟨_, exec_ldDtVx x s, rfl, rfl, (setDt_sameBut s _).trans (advance_sameBut _),
      countDown_toNat (s.getV x)⟩
  · exact ⟨_, exec_ldStVx x s, rfl, rfl, (setSt_sameBut s _).trans (advance_sameBut _),
      countDown_toNat (s.getV x), decide_eq_true_iff⟩

end Sys2Proof.Machine

/-! The blocks of memory at `I`: digits and registers stored, registers loaded (42_memory_ops.md
R190, R194 to R196). -/

namespace Sys2Proof.Machine

section

variable {s : State}

/-! ## Bytes stored at `I` -/

theorem State.outOfRange_eq_false {n : Nat}
    (h : s.params.addrPolicy = .wrap12 ∨ s.I.toNat + n ≤ 0xFFF) :
    s.outOfRange (n + 1) = false := by
  rw [Bool.eq_false_iff, Ne, State.outOfRange_iff, Nat.add_sub_cancel]
  rintro ⟨hp, -, hout⟩
  rcases h with h | h
  · rw [h] at hp
    cases hp
  · omega

theorem State.outOfRange_eq_true {n : Nat} (hp : s.params.addrPolicy = .fault)
    (h : 0xFFF < s.I.toNat + n) : s.outOfRange (n + 1) = true :=
  State.outOfRange_iff.2 ⟨hp, n.succ_pos, h⟩

theorem storeAtI_pc {bs : List Byte} {t : State} (h : storeAtI bs s = .next t) :
    t.pc = s.pc + 2 := by
  obtain ⟨u, hu, rfl⟩ := storeAtI_next h
  obtain ⟨⟨m, rfl⟩, -, -⟩ := State.writeBytes_frame bs hu
  rfl

/-- A store of at most 4096 bytes in range: byte `k` lies where `I + k` resolves to, and no other
byte changes. -/
theorem storeAtI_spec {bs : List Byte} (hlen : bs.length ≤ 4096)
    (h : s.outOfRange bs.length = false) :
    ∃ t, storeAtI bs s = .next t ∧ t.pc = s.pc + 2 ∧ SameBut [.mem, .pc] s t ∧
      (∀ k (hk : k < bs.length) q, phys s.params.addrPolicy (s.effAddr k) = some q →
        t.memByte q = bs[k]) ∧
      ∀ q, (∀ k, k < bs.length → phys s.params.addrPolicy (s.effAddr k) ≠ some q) →
        t.memByte q = s.memByte q := by
  obtain ⟨u, hu⟩ := State.writeBytes_inRange h
  have hnext := storeAtI_stores hu
  obtain ⟨-, -, hother⟩ := State.writeBytes_frame bs hu
  refine ⟨_, hnext, storeAtI_pc hnext, storeAtI_sameBut hnext, fun k hk q hq => ?_, hother⟩
  obtain ⟨r, hr, hbyte⟩ := State.writeBytes_stored bs hu hlen k hk
  obtain rfl : q = r := Option.some.inj (hq.symm.trans hr)
  exact hbyte

/-- What an address of the stored block reads as afterwards. -/
theorem readByte_of_storeAtI {bs : List Byte} {t : State} (h : storeAtI bs s = .next t)
    (hlen : bs.length ≤ 4096) {k : Nat} (hk : k < bs.length) :
    t.readByte (s.effAddr k) = some bs[k] := by
  obtain ⟨u, hu, rfl⟩ := storeAtI_next h
  obtain ⟨⟨m, rfl⟩, -, -⟩ := State.writeBytes_frame bs hu
  obtain ⟨q, hq, hbyte⟩ := State.writeBytes_stored bs hu hlen k hk
  exact (congrArg (Option.map _) hq).trans (congrArg some hbyte)

theorem exec_ldB (x : Reg) (s : State) :
    exec (.ldB x) s = storeAtI (bcdDigits (s.getV x)) s := rfl

theorem exec_storeRegs (x : Reg) (s : State) :
    exec (.storeRegs x) s = storeAtI (s.regsUpTo x) s := rfl

/-- Every digit fits in a byte. -/
theorem bcdDigits_map_toNat (b : Byte) :
    (bcdDigits b).map BitVec.toNat = [b.toNat / 100, b.toNat / 10 % 10, b.toNat % 10] := by
  have hb := b.isLt
  simp only [bcdDigits, List.map_cons, List.map_nil, BitVec.toNat_ofNat, List.cons.injEq, and_true]
  omega

theorem bcdDigits_getElem_toNat (b : Byte) {k : Nat} (hk : k < 3) :
    ((bcdDigits b)[k]'hk).toNat = [b.toNat / 100, b.toNat / 10 % 10, b.toNat % 10][k]'hk :=
  (List.getElem_map BitVec.toNat).symm.trans (List.getElem_of_eq (bcdDigits_map_toNat b) hk)

end

/-! ## The obligations -/

/-- Settles O46: a store of the three digits. -/
theorem decimalDigitsStored : Obligations.DecimalDigitsStored := by
  refine fun x s => ⟨fun h => ?_, fun hp h => ?_⟩
  · have hlen : (bcdDigits (s.getV x)).length = 3 := rfl
    obtain ⟨t, ht, hpc, hframe, hbytes, hother⟩ :=
      storeAtI_spec (bs := bcdDigits (s.getV x)) (by omega) (State.outOfRange_eq_false h)
    have hdigit {k : Nat} (hk : k < 3) {q : Nat}
        (hq : phys s.params.addrPolicy (s.effAddr k) = some q) :=
      (congrArg BitVec.toNat (hbytes k hk q hq)).trans (bcdDigits_getElem_toNat (s.getV x) hk)
    exact ⟨t, ht, hpc, hframe, fun q => hdigit (by decide), fun q => hdigit (by decide),
      fun q => hdigit (by decide), hother⟩
  · exact storeAtI_faults (State.outOfRange_eq_true hp h)

/-- Settles O47: a store of the registers up to `V[X]`. -/
theorem registersStored : Obligations.RegistersStored := by
  intro x s
  have hlen := s.regsUpTo_length x
  refine ⟨fun h => ?_, fun hp h => ?_⟩
  · obtain ⟨t, ht, hpc, hframe, hbytes, hother⟩ :=
      storeAtI_spec (s := s) (bs := s.regsUpTo x) (by omega) (hlen ▸ State.outOfRange_eq_false h)
    refine ⟨t, ht, hpc, hframe, fun k q hk hq => ?_, fun q hq => hother q fun k hk => hq k ?_⟩
    · have hk' : k.val < (s.regsUpTo x).length := hlen ▸ Nat.lt_succ_of_le hk
      rw [hbytes k.val hk' q hq, State.regsUpTo_getElem]
    · omega
  · exact storeAtI_faults (hlen ▸ State.outOfRange_eq_true hp h)

/-- Settles O48: a sequence read of `X + 1` bytes at `I`, put into the registers from V0 up. -/
theorem registersLoaded : Obligations.RegistersLoaded := by
  refine fun x s => ⟨fun h => ?_, fun hp h => ?_⟩
  · obtain ⟨bs, hbs⟩ := State.readBytes_inRange (State.outOfRange_eq_false h)
    have hnext := execLoadRegs_loads hbs
    obtain ⟨hlen, hbyte⟩ := State.readBytes_spec _ hbs
    refine ⟨_, hnext, rfl, exec_sameBut_writes hnext, fun k hk => ?_, fun k hk => ?_⟩
    · have hk' : k.val < bs.length := hlen ▸ Nat.lt_succ_of_le hk
      rw [State.advance_getV, State.getV_setRegs, dif_pos hk', ← hbyte k.val hk']
      rfl
    · have hk' : ¬ k.val < bs.length := hlen ▸ Nat.not_lt_of_le hk
      rw [State.advance_getV, State.getV_setRegs, dif_neg hk']
  · exact execLoadRegs_outside
      (State.readBytes_eq_none_iff_outOfRange.2 (State.outOfRange_eq_true hp h))

/-- Settles O29: the next fetch reads `I` and `I + 1`, the first two addresses of the store. -/
theorem storedBytesAreFetchedNext : Obligations.StoredBytesAreFetchedNext := by
  intro x s t hx hI _ h
  have hlen := s.regsUpTo_length x
  have htpc : t.pc = s.I := (storeAtI_pc h).trans hI.symm
  have hread (k : Reg) (hk : k ≤ x) : t.readByte (t.pc.toNat + k.val) = some (s.getV k) := by
    have hk' : k.val < (s.regsUpTo x).length := hlen ▸ Nat.lt_succ_of_le hk
    rw [htpc, ← s.regsUpTo_getElem x k hk']
    exact readByte_of_storeAtI h (by omega) hk'
  exact ⟨_, State.fetchWord_of_readByte (hread 0 (Fin.zero_le x)) (hread 1 hx),
    wordOfBytes_toNat _ _⟩

end Sys2Proof.Machine

/-! The sprite DXYN draws, and the key FX0A waits for (43_display.md R210 to R215,
44_input_timers.md R234). -/

namespace Sys2Proof.Machine

/-! ## Which pixels a sprite covers -/

section

variable {x y : Nat} {bs : List Byte}

/-- The pixel of row `r` and column `c` of a sprite is covered exactly when that sprite bit is
set. -/
theorem covered_rowOf_colOf (hlen : bs.length ≤ 32) {r c : Nat} (hr : r < bs.length) (hc : c < 8) :
    covered x y bs (rowOf (y + r)) (colOf (x + c)) = spriteBit bs[r] c := by
  have hrow : r = spriteRow y (rowOf (y + r)) := (rowOf_eq_iff y r _ (by omega)).1 rfl
  have hcol : c = spriteColumn x (colOf (x + c)) := (colOf_eq_iff x c _ (by omega)).1 rfl
  simp [covered, ← hrow, ← hcol, hr, hc]

theorem covered_of_outside (hlen : bs.length ≤ 32) {py : Row} {px : Col}
    (h : ∀ r c, r < bs.length → c < 8 → ¬ (py = rowOf (y + r) ∧ px = colOf (x + c))) :
    covered x y bs py px = false := by
  by_contra hcov
  simp only [covered, Bool.not_eq_false, Bool.and_eq_true, decide_eq_true_eq] at hcov
  obtain ⟨⟨hr, hc⟩, -⟩ := hcov
  exact h _ _ hr hc ⟨(rowOf_eq_iff y _ py (by omega)).2 rfl, (colOf_eq_iff x _ px (by omega)).2 rfl⟩

end

/-! ## The collision flag -/

theorem collisionFlag_zero_or_one (hit : Bool) : collisionFlag hit = 0 ∨ collisionFlag hit = 1 := by
  cases hit
  · exact .inl rfl
  · exact .inr rfl

theorem collisionFlag_eq_one_iff {hit : Bool} : collisionFlag hit = 1 ↔ hit = true := by
  cases hit <;> decide

section

variable {s : State}

/-! ## The state DXYN leaves -/

/-- What DXYN does besides its pixels, whatever display and flag it gives. -/
theorem redraw_setV_advance_spec (s : State) (d : Display) (f : Byte) :
    ((s.redraw d).setV 0xF f).advance.getV 0xF = f ∧
      (∀ q, q ≠ 0xF → ((s.redraw d).setV 0xF f).advance.getV q = s.getV q) ∧
      ((s.redraw d).setV 0xF f).advance.pc = s.pc + 2 := by
  obtain ⟨hF, hother, hpc, -⟩ := setV_advance_spec (s.redraw d) 0xF f
  exact ⟨hF, hother, hpc⟩

/-- The bytes of a sequence read, one by one. -/
theorem readBytes_getElem_iff {n : Nat} {bs : List Byte}
    (h : s.readBytes (s.effAddr 0) n = some bs) {r : Nat} (hr : r < bs.length) {b : Byte} :
    s.readByte (s.effAddr r) = some b ↔ bs[r] = b := by
  have hread : s.readByte (s.effAddr r) = some bs[r] := (State.readBytes_spec n h).2 r hr
  rw [hread, Option.some_inj]

/-! ## The key wait -/

theorem exec_ldVxK_of_pressed (x : Reg) {j : Key} (h : s.pressed j = true) :
    ∃ k, exec (.ldVxK x) s = .next (s.drawn.setV x (keyByte k)).advance ∧ s.pressed k = true := by
  have hne := List.ne_nil_of_mem (State.mem_pressedKeys.2 h)
  obtain ⟨k₀, ks, hks⟩ := List.exists_cons_of_ne_nil hne
  refine ⟨_, execLdVxK_takes hks, State.mem_pressedKeys.1 ?_⟩
  rw [hks]
  exact pickKey_mem _ k₀ ks

theorem pressedKeys_eq_nil (h : ∀ k, s.pressed k = false) : s.pressedKeys = [] :=
  List.eq_nil_iff_forall_not_mem.2 fun k hk =>
    Bool.false_ne_true ((h k).symm.trans (State.mem_pressedKeys.1 hk))

end

/-! ## The obligations -/

/-- Settles O50: `covered` says which pixels are toggled, and the collision test sees the display
from before the draw. -/
theorem drawTogglesSpriteAndReportsCollision :
    Obligations.DrawTogglesSpriteAndReportsCollision := by
  intro x y n s hwf
  have hn : n ≤ 15 := of_decide_eq_true hwf
  refine ⟨fun hin => ?_, fun hout =>
    execDrw_outside (State.readBytes_eq_none_iff_outOfRange.2 hout)⟩
  obtain ⟨bs, hbs⟩ := State.readBytes_inRange hin
  have hnext := execDrw_draws (x := x) (y := y) hbs
  obtain rfl : bs.length = n := (State.readBytes_spec n hbs).1
  have hlen : bs.length ≤ 32 := by omega
  obtain ⟨hF, hother, hpc⟩ := redraw_setV_advance_spec s
    (drawRows (s.getV x).toNat (s.getV y).toNat bs (s.disp, false)).1
    (collisionFlag (drawRows (s.getV x).toNat (s.getV y).toNat bs (s.disp, false)).2)
  refine ⟨_, hnext, fun r c b hr hc hb => ?_, fun py px hout => ?_, ?_, ?_, hother, rfl, hpc,
    exec_sameBut_writes hnext⟩
  · obtain rfl := (readBytes_getElem_iff hbs hr).1 hb
    exact (drawRows_pixel _ _ _ bs _ _ hlen).trans
      (congrArg (_ ^^ ·) (covered_rowOf_colOf hlen hr hc))
  · have hcov := covered_of_outside hlen (py := py) (px := px)
      fun r c hr hc h => hout r c hr hc ⟨congrArg Fin.val h.1, congrArg Fin.val h.2⟩
    refine (drawRows_pixel _ py px bs _ _ hlen).trans ?_
    rw [hcov, Bool.xor_false]
  · rw [hF]
    exact collisionFlag_zero_or_one _
  · rw [hF, collisionFlag_eq_one_iff, drawRows_hit _ bs _ _ hlen]
    constructor
    · rintro (h | ⟨r, hr, c, hc, hbit, hpix⟩)
      · cases h
      · exact ⟨r, c, bs[r], hr, hc, (readBytes_getElem_iff hbs hr).2 rfl, hbit, hpix⟩
    · rintro ⟨r, c, b, hr, hc, hb, hbit, hpix⟩
      obtain rfl := (readBytes_getElem_iff hbs hr).1 hb
      exact .inr ⟨r, hr, c, hc, hbit, hpix⟩

/-- Settles O52: a sprite of no bytes leaves the display and records no collision. -/
theorem drawOfHeightZeroClearsFlag : Obligations.DrawOfHeightZeroClearsFlag := by
  intro x y s
  obtain ⟨hF, hother, hpc⟩ := redraw_setV_advance_spec s s.disp (collisionFlag false)
  have hnext : exec (.drw x y 0) s =
      .next ((s.redraw s.disp).setV 0xF (collisionFlag false)).advance := rfl
  exact ⟨_, hnext, hF, rfl, hpc, hother,
    SameBut.of_same (p := .disp) ((exec_sameBut_writes hnext).mono (by simp [Instr.writes])) rfl⟩

/-- Settles O55: FX0A waits on an empty set of pressed keys, and takes a member of any other. -/
theorem keyWaitPollsUntilPressed : Obligations.KeyWaitPollsUntilPressed := by
  refine fun x s => ⟨fun h => ?_, fun j hj => ?_⟩
  · have hwait := execLdVxK_waits (x := x) (pressedKeys_eq_nil h)
    exact ⟨hwait, fun op ht hf hd => (step_of_decode ht hf hd).trans (congrArg finishStep hwait)⟩
  · obtain ⟨k, hnext, hk⟩ := exec_ldVxK_of_pressed x hj
    obtain ⟨hx, hframe⟩ := drawn_setV_advance_spec x s (keyByte k)
    exact ⟨_, k, hnext, hk, (congrArg BitVec.toNat hx).trans (keyByte_toNat k),
      fun honly => honly k hk, hframe⟩

end Sys2Proof.Machine

/-! The register table: what an instruction reads of the registers and what it leaves of them
(10_state.md R33). -/

namespace Sys2Proof.Machine

/-! ## States that agree on every register but one -/

/-- The two states hold the same in everything but register `r`. -/
def AgreeOff (r : Reg) (s t : State) : Prop :=
  ∃ v, t = { s with V := v } ∧ ∀ q, q ≠ r → t.getV q = s.getV q

theorem agreeOff_setV (s : State) (r : Reg) (b : Byte) : AgreeOff r s (s.setV r b) :=
  ⟨_, rfl, fun _ => s.getV_setV_other b⟩

namespace AgreeOff

variable {r : Reg} {s t : State}

theorem sameBut (h : AgreeOff r s t) : SameBut [.V] s t := by
  obtain ⟨v, rfl, -⟩ := h
  exact sameBut_V s v

theorem getV_other (h : AgreeOff r s t) (q : Reg) (hq : q ≠ r) : t.getV q = s.getV q := by
  obtain ⟨v, -, hv⟩ := h
  exact hv q hq

/-- The same update of both states, where it neither reads nor writes the registers. -/
theorem map (h : AgreeOff r s t) (f : State → State)
    (hf : ∀ v, f { s with V := v } = { f s with V := v }) (hV : (f s).V = s.V) :
    AgreeOff r (f s) (f t) := by
  obtain ⟨v, rfl, hv⟩ := h
  refine ⟨v, hf v, fun q hq => ?_⟩
  rw [hf v, State.getV, State.getV, hV]
  exact hv q hq

theorem advance (h : AgreeOff r s t) : AgreeOff r s.advance t.advance :=
  h.map State.advance (fun _ => rfl) rfl

theorem setPc (h : AgreeOff r s t) (a : Word) : AgreeOff r (s.setPc a) (t.setPc a) :=
  h.map (·.setPc a) (fun _ => rfl) rfl

theorem skipIf (h : AgreeOff r s t) (c : Bool) : AgreeOff r (s.skipIf c) (t.skipIf c) :=
  h.map (·.skipIf c) (fun _ => rfl) rfl

theorem setI (h : AgreeOff r s t) (a : Word) : AgreeOff r (s.setI a) (t.setI a) :=
  h.map (·.setI a) (fun _ => rfl) rfl

theorem setDt (h : AgreeOff r s t) (b : Byte) : AgreeOff r (s.setDt b) (t.setDt b) :=
  h.map (·.setDt b) (fun _ => rfl) rfl

theorem setSt (h : AgreeOff r s t) (b : Byte) : AgreeOff r (s.setSt b) (t.setSt b) :=
  h.map (·.setSt b) (fun _ => rfl) rfl

theorem drawn (h : AgreeOff r s t) : AgreeOff r s.drawn t.drawn :=
  h.map State.drawn (fun _ => rfl) rfl

theorem redraw (h : AgreeOff r s t) (d : Display) : AgreeOff r (s.redraw d) (t.redraw d) :=
  h.map (·.redraw d) (fun _ => rfl) rfl

theorem setV (h : AgreeOff r s t) (x : Reg) (b : Byte) : AgreeOff r (s.setV x b) (t.setV x b) := by
  obtain ⟨v, rfl, hv⟩ := h
  refine ⟨v.set x b, rfl, fun q hq => ?_⟩
  rw [State.getV_setV, State.getV_setV, hv q hq]

theorem setFlagThenV (h : AgreeOff r s t) (f : Byte) (x : Reg) (b : Byte) :
    AgreeOff r (s.setFlagThenV f x b) (t.setFlagThenV f x b) :=
  (h.setV 0xF f).setV x b

theorem setRegs (h : AgreeOff r s t) (bs : List Byte) :
    AgreeOff r (s.setRegs bs) (t.setRegs bs) := by
  obtain ⟨v, rfl, hv⟩ := h
  refine ⟨writeRegs 0 bs v, rfl, fun q hq => ?_⟩
  rw [State.getV_setRegs, State.getV_setRegs, hv q hq]

theorem readBytes_effAddr (h : AgreeOff r s t) (n : Nat) :
    t.readBytes (t.effAddr 0) n = s.readBytes (s.effAddr 0) n := by
  rw [h.sameBut.effAddr (by decide), h.sameBut.readBytes (by decide) (by decide)]

theorem pressed (h : AgreeOff r s t) : t.pressed = s.pressed := by
  obtain ⟨v, rfl, -⟩ := h
  rfl

theorem pressedKeys (h : AgreeOff r s t) : t.pressedKeys = s.pressedKeys := by
  rw [State.pressedKeys, State.pressedKeys, h.pressed]

end AgreeOff

/-- Two outcomes of the same kind: the same fault, or next states that agree off `r`. -/
inductive AgreeOutcome (r : Reg) :
    Host.Outcome State Fault Refusal → Host.Outcome State Fault Refusal → Prop where
  | next {t u : State} (h : AgreeOff r t u) : AgreeOutcome r (.next t) (.next u)
  | fault (f : Fault) : AgreeOutcome r (.fault f) (.fault f)

theorem AgreeOutcome.of_next {r : Reg} {t : State} {o : Host.Outcome State Fault Refusal}
    (h : AgreeOutcome r (.next t) o) : ∃ u, o = .next u ∧ AgreeOff r t u := by
  cases h with
  | next h => exact ⟨_, rfl, h⟩

theorem AgreeOutcome.of_fault {r : Reg} {f : Fault} {o : Host.Outcome State Fault Refusal}
    (h : AgreeOutcome r (.fault f) o) : o = .fault f := by
  cases h
  rfl

section

variable {r : Reg} {s s' : State}

/-! ## The outcome depends on the registers read alone -/

theorem storeAtI_agreeOff (h : AgreeOff r s s') (bs : List Byte) :
    AgreeOutcome r (storeAtI bs s) (storeAtI bs s') := by
  obtain ⟨v, rfl, hv⟩ := h
  have hw := State.writeBytes_congr (s := s) (t := { s with V := v }) bs (s.effAddr 0) rfl rfl
  cases hs : s.writeBytes (s.effAddr 0) bs with
  | none =>
    rw [hs] at hw
    rw [storeAtI_outside hs, storeAtI_outside hw]
    exact .fault _
  | some u =>
    rw [hs] at hw
    obtain ⟨⟨m, rfl⟩, -, -⟩ := State.writeBytes_frame bs hs
    rw [storeAtI_stores hs, storeAtI_stores hw]
    exact .next ⟨v, rfl, hv⟩

theorem regsUpTo_congr {x : Reg} (h : ∀ q : Reg, q ≤ x → s'.getV q = s.getV q) :
    s'.regsUpTo x = s.regsUpTo x := by
  refine List.ext_getElem (by simp only [State.regsUpTo_length]) fun k hk _ => ?_
  rw [State.regsUpTo_length] at hk
  rw [State.regsUpTo_getElem, State.regsUpTo_getElem]
  exact h _ (Nat.le_of_lt_succ hk)

/-- Both states take the same branch of the meaning, and their next states are the same update of
each. -/
theorem exec_agreeOff {i : Instr} (h : AgreeOff r s s')
    (hreads : ∀ q, i.readsReg q = true → s'.getV q = s.getV q) :
    AgreeOutcome r (exec i s) (exec i s') := by
  cases i with
  | cls => exact .next (h.redraw _).advance
  | jp nnn => exact .next (h.setPc nnn)
  | ldI nnn => exact .next (h.setI nnn).advance
  | ldImm x nn => exact .next (h.setV x nn).advance
  | jpV0 nnn =>
    rw [exec_jpV0, exec_jpV0, hreads 0 rfl]
    exact .next (h.setPc _)
  | seImm x | sneImm x =>
    simp only [exec_seImm, exec_sneImm, hreads x (beq_self_eq_true x)]
    exact .next (h.skipIf _)
  | seReg x y | sneReg x y =>
    have hx := hreads x (by simp [Instr.readsReg])
    have hy := hreads y (by simp [Instr.readsReg])
    simp only [exec_seReg, exec_sneReg, hx, hy]
    exact .next (h.skipIf _)
  | addImm x nn =>
    rw [exec_addImm, exec_addImm, hreads x (beq_self_eq_true x)]
    exact .next (h.setV x _).advance
  | ldReg x y =>
    rw [exec_ldReg, exec_ldReg, hreads y (beq_self_eq_true y)]
    exact .next (h.setV x _).advance
  | orReg x y | andReg x y | xorReg x y =>
    have hx := hreads x (by simp [Instr.readsReg])
    have hy := hreads y (by simp [Instr.readsReg])
    simp only [exec_orReg, exec_andReg, exec_xorReg, hx, hy]
    exact .next (h.setV x _).advance
  | addReg x y | subReg x y | subn x y =>
    have hx := hreads x (by simp [Instr.readsReg])
    have hy := hreads y (by simp [Instr.readsReg])
    simp only [exec_addReg, exec_subReg, exec_subn, hx, hy]
    exact .next (h.setFlagThenV _ x _).advance
  | shr x | shl x =>
    simp only [exec_shr, exec_shl, hreads x (beq_self_eq_true x)]
    exact .next (h.setFlagThenV _ x _).advance
  | ldF x =>
    rw [exec_ldF, exec_ldF, hreads x (beq_self_eq_true x)]
    exact .next (h.setI _).advance
  | addI x =>
    have hI : s'.I = s.I := h.sameBut .I (by decide)
    rw [exec_addI, exec_addI, hreads x (beq_self_eq_true x), hI]
    exact .next (h.setI _).advance
  | ldDtVx x =>
    rw [exec_ldDtVx, exec_ldDtVx, hreads x (beq_self_eq_true x)]
    exact .next (h.setDt _).advance
  | ldStVx x =>
    rw [exec_ldStVx, exec_ldStVx, hreads x (beq_self_eq_true x)]
    exact .next (h.setSt _).advance
  | ldVxDt x =>
    have hdt : s'.dt = s.dt := h.sameBut .dt (by decide)
    rw [exec_ldVxDt, exec_ldVxDt, hdt]
    exact .next (h.setV x _).advance
  | rnd x nn =>
    have hdraws : s'.draws = s.draws := h.sameBut .draws (by decide)
    rw [exec_rnd, exec_rnd, hdraws]
    exact .next (h.drawn.setV x _).advance
  | ret =>
    obtain ⟨v, rfl, hv⟩ := h
    rcases Nat.eq_zero_or_pos s.sp.val with hsp | hsp
    · rw [execRet_empty (Fin.ext hsp), execRet_empty (s := { s with V := v }) (Fin.ext hsp)]
      exact .fault _
    · rw [execRet_pops hsp, execRet_pops (s := { s with V := v }) hsp]
      exact .next ⟨v, rfl, hv⟩
  | call nnn =>
    obtain ⟨v, rfl, hv⟩ := h
    by_cases hsp : s.sp = Fin.last 16
    · rw [execCall_full hsp, execCall_full (s := { s with V := v }) hsp]
      exact .fault _
    · have hlt : s.sp.val < 16 := Fin.val_lt_last hsp
      rw [execCall_pushes hlt, execCall_pushes (s := { s with V := v }) hlt]
      exact .next ⟨v, rfl, hv⟩
  | skp x =>
    have hkey := congrArg keyOf (hreads x (beq_self_eq_true x))
    cases hk : keyOf (s.getV x) with
    | none =>
      rw [execSkp_noKey hk, execSkp_noKey (hkey.trans hk)]
      exact .fault _
    | some k =>
      rw [execSkp_key hk, execSkp_key (hkey.trans hk), h.pressed]
      exact .next (h.skipIf _)
  | sknp x =>
    have hkey := congrArg keyOf (hreads x (beq_self_eq_true x))
    cases hk : keyOf (s.getV x) with
    | none =>
      rw [execSknp_noKey hk, execSknp_noKey (hkey.trans hk)]
      exact .fault _
    | some k =>
      rw [execSknp_key hk, execSknp_key (hkey.trans hk), h.pressed]
      exact .next (h.skipIf _)
  | ldVxK x =>
    have hdraws : s'.draws = s.draws := h.sameBut .draws (by decide)
    cases hk : s.pressedKeys with
    | nil =>
      rw [execLdVxK_waits hk, execLdVxK_waits (h.pressedKeys.trans hk)]
      exact .next h
    | cons k ks =>
      rw [execLdVxK_takes hk, execLdVxK_takes (h.pressedKeys.trans hk), hdraws]
      exact .next (h.drawn.setV x _).advance
  | drw x y n =>
    have hx := hreads x (by simp [Instr.readsReg])
    have hy := hreads y (by simp [Instr.readsReg])
    have hdisp : s'.disp = s.disp := h.sameBut .disp (by decide)
    have hread := h.readBytes_effAddr n
    cases hs : s.readBytes (s.effAddr 0) n with
    | none =>
      rw [execDrw_outside hs, execDrw_outside (hread.trans hs)]
      exact .fault _
    | some bs =>
      rw [execDrw_draws hs, execDrw_draws (hread.trans hs), hx, hy, hdisp]
      exact .next ((h.redraw _).setV 0xF _).advance
  | loadRegs x =>
    have hread := h.readBytes_effAddr (x.val + 1)
    cases hs : s.readBytes (s.effAddr 0) (x.val + 1) with
    | none =>
      rw [execLoadRegs_outside hs, execLoadRegs_outside (hread.trans hs)]
      exact .fault _
    | some bs =>
      rw [execLoadRegs_loads hs, execLoadRegs_loads (hread.trans hs)]
      exact .next (h.setRegs bs).advance
  | ldB x =>
    rw [exec_ldB, exec_ldB, hreads x (beq_self_eq_true x)]
    exact storeAtI_agreeOff h _
  | storeRegs x =>
    rw [exec_storeRegs, exec_storeRegs, regsUpTo_congr fun q hq => hreads q (decide_eq_true hq)]
    exact storeAtI_agreeOff h _

/-! ## The registers an instruction leaves alone -/

theorem exec_keeps_unwritten_reg {i : Instr} {t : State} (h : exec i s = .next t)
    (hr : i.writesReg r = false) : t.getV r = s.getV r := by
  cases i with
  | ldImm x | addImm x | ldReg x | orReg x | andReg x | xorReg x | ldVxDt x =>
    cases h
    exact setV_advance_getV_other s _ (ne_of_beq_false hr)
  | rnd x =>
    cases h
    exact setV_advance_getV_other s.drawn _ (ne_of_beq_false hr)
  | ldVxK x =>
    obtain ⟨-, rfl⟩ | ⟨k, -, rfl⟩ := execLdVxK_next h
    · rfl
    · exact setV_advance_getV_other s.drawn _ (ne_of_beq_false hr)
  | addReg x | subReg x | subn x | shr x | shl x =>
    cases h
    obtain ⟨hx, hF⟩ := Bool.or_eq_false_iff.1 hr
    obtain ⟨-, -, hother, -⟩ := setFlagThenV_advance_spec x s _ _
    exact hother r (ne_of_beq_false hx) (ne_of_beq_false hF)
  | drw x y n =>
    obtain ⟨bs, -, rfl⟩ := execDrw_next h
    exact setV_advance_getV_other (s.redraw _) _ (ne_of_beq_false hr)
  | loadRegs x =>
    obtain ⟨bs, hbs, rfl⟩ := execLoadRegs_next h
    have hlen := (State.readBytes_spec _ hbs).1
    have hout : ¬ r.val < bs.length := by
      have hr' := of_decide_eq_false hr
      omega
    rw [State.advance_getV, State.getV_setRegs, dif_neg hout]
  | _ => exact exec_sameBut_writes h .V (by simp [Instr.writes]) r

end

/-! ## The obligation -/

/-- Settles O18: the frame of the registers not written, and `exec_agreeOff` with another value in
a register that is not read. -/
theorem registersReadAndWrittenFollowTable : Obligations.RegistersReadAndWrittenFollowTable := by
  refine fun i s r => ⟨fun t => exec_keeps_unwritten_reg, fun hr b => ?_⟩
  have hagree : AgreeOutcome r (exec i s) (exec i (s.setV r b)) := by
    refine exec_agreeOff (agreeOff_setV s r b) fun q hq => s.getV_setV_other b ?_
    rintro rfl
    exact Bool.false_ne_true (hr.symm.trans hq)
  refine ⟨fun t ht => ?_, fun f hf => ?_⟩
  · obtain ⟨u, hu, hoff⟩ := (ht ▸ hagree).of_next
    exact ⟨u, hu, hoff.sameBut, hoff.getV_other⟩
  · exact (hf ▸ hagree).of_fault

end Sys2Proof.Machine
